-- ==== Sys2Proof/Config.lean ====
section
/-! DEFINITION. What the spec fixes for the machine once and for all (`00_scope.md` R152). The spec leaves no result of an
instruction open, so there is no free value here. `PC_WIDTH` (R153) is no constant of the model: the program counter is a
natural number (log 3). `IMAGE` (D24) is an argument of `boot`; `MAX_STEPS` (D26) belongs to a test runner. -/

namespace Sys2Proof

/-- `MEM_SIZE`, the number of memory cells (`00_scope.md` R152, `20_memory.md` R30). -/
abbrev memSize : Nat := 256

/-- `NREG`, the number of general registers (`00_scope.md` R152, `10_state.md` R10). -/
abbrev numRegs : Nat := 8

end Sys2Proof
end

