-- ==== Sys2Proof/Word.lean ====
section
/-! DEFINITION. The one word type of the machine: an unsigned byte (`00_scope.md` section 5, u8). Nothing in this hardware is
signed and nothing but the program counter is wider than a byte (`20_memory.md` R35). -/

namespace Sys2Proof

/-- u8: a register, a memory cell, an operand byte, an opcode, the flags register. -/
abbrev Byte := BitVec 8

end Sys2Proof
end

