-- ==== Sys2Proof/Syntax.lean ====
section
/-! DEFINITION. The instructions, one constructor per row of the opcode table (`30_encoding.md` R55), with their operand bytes.
The ALU's Add has no opcode and so no constructor (`40_alu.md` R78). -/

namespace Sys2Proof

/-- The index of a general register, R0 to R7 (`10_state.md` R10). -/
abbrev RegIndex := Fin numRegs

/-- An operand byte as the execute phase meets it (`30_encoding.md` R51, R59): the byte at its address, or `none` where that
address is 256 or above, outside memory. What an instruction does about a missing byte is its meaning's business: LDI, PRN, MUL,
CMP, JMP and a taken jump raise OutOfBounds, a not-taken JEQ or JNE never looks (`43_jumps.md` R99). DESIGN CHOICE, log 4. -/
abbrev Operand := Option Byte

/-- The instruction set (`30_encoding.md` R55). A register operand is the WHOLE byte: 8 to 255 is no other instruction but the
same one, which faults when it uses the register (R54). -/
inductive Instr where
  /-- HLT, format OP (`41_execution_cycle.md` R82). -/
  | hlt
  /-- LDI reg, imm8, format OP_R_I (`42_ldi_prn.md` R90). -/
  | ldi (reg imm8 : Operand)
  /-- PRN reg, format OP_R (`42_ldi_prn.md` R91). -/
  | prn (reg : Operand)
  /-- MUL reg_a, reg_b, format OP_R_R (`40_alu.md` R76). -/
  | mul (regA regB : Operand)
  /-- CMP reg_a, reg_b, format OP_R_R (`40_alu.md` R77). -/
  | cmp (regA regB : Operand)
  /-- JMP reg, format OP_R (`43_jumps.md` R95). -/
  | jmp (reg : Operand)
  /-- JEQ reg, format OP_R (`43_jumps.md` R96). -/
  | jeq (reg : Operand)
  /-- JNE reg, format OP_R (`43_jumps.md` R97). -/
  | jne (reg : Operand)
deriving DecidableEq, Repr

end Sys2Proof
end

