-- ==== Sys2Proof/Decode.lean ====
section
/-! DEFINITION. The decoder, total on any bytes and rejecting by name, and after it the encoder, both from the opcode map of
`30_encoding.md` R55 and the formats of R51. -/

namespace Sys2Proof

/-! ## The opcode map (`30_encoding.md` R55) -/

/-- HALT_OPCODE 0b00000001. -/
def opcodeHlt : Byte := 0b00000001
/-- LDI 0b10000010. -/
def opcodeLdi : Byte := 0b10000010
/-- PRN 0b01000111. -/
def opcodePrn : Byte := 0b01000111
/-- MUL 0b10100010. -/
def opcodeMul : Byte := 0b10100010
/-- CMP 0b10100111. -/
def opcodeCmp : Byte := 0b10100111
/-- JMP 0b01010100. -/
def opcodeJmp : Byte := 0b01010100
/-- JEQ 0b01010101. -/
def opcodeJeq : Byte := 0b01010101
/-- JNE 0b01010110. -/
def opcodeJne : Byte := 0b01010110

/-! ## Decoding -/

/-- Why bytes are no instruction. -/
inductive DecodeError where
  /-- There is no opcode byte: the list of bytes is empty. -/
  | noOpcode
  /-- The opcode byte is none of the eight (`30_encoding.md` R56). -/
  | illegalOpcode (opcode : Byte)
deriving DecidableEq, Repr

/-- The dispatcher's lookup of an opcode byte, matched whole (`30_encoding.md` R52), with the bytes that follow it in memory: HLT is
recognised first (`41_execution_cycle.md` R82), then the seven of the Opcode Table; `none` where the byte is absent from it (R83).
`rest` ends where memory ends, so an operand whose byte is not in `rest` is `none`. The opcode alone decides, whatever `rest` is. -/
def decodeOpcode (opcode : Byte) (rest : List Byte) : Option Instr :=
  if opcode = opcodeHlt then some .hlt
  else if opcode = opcodeLdi then some (.ldi rest[0]? rest[1]?)
  else if opcode = opcodePrn then some (.prn rest[0]?)
  else if opcode = opcodeMul then some (.mul rest[0]? rest[1]?)
  else if opcode = opcodeCmp then some (.cmp rest[0]? rest[1]?)
  else if opcode = opcodeJmp then some (.jmp rest[0]?)
  else if opcode = opcodeJeq then some (.jeq rest[0]?)
  else if opcode = opcodeJne then some (.jne rest[0]?)
  else none

/-- The instruction that starts a list of bytes, or why there is none. -/
def decode : List Byte → Except DecodeError Instr
  | [] => .error .noOpcode
  | opcode :: rest =>
    match decodeOpcode opcode rest with
    | some i => .ok i
    | none => .error (.illegalOpcode opcode)

/-- The longest instruction has three bytes (`30_encoding.md` R50). -/
def maxLength : Nat := 3

/-- An instruction's length in bytes, fixed by its opcode (`30_encoding.md` R50, R58). -/
def Instr.length : Instr → Nat
  | .hlt => 1
  | .ldi _ _ => 3
  | .prn _ => 2
  | .mul _ _ => 3
  | .cmp _ _ => 3
  | .jmp _ => 2
  | .jeq _ => 2
  | .jne _ => 2

/-! ## Encoding -/

/-- The opcode byte of an instruction (`30_encoding.md` R55). -/
def Instr.opcode : Instr → Byte
  | .hlt => opcodeHlt
  | .ldi _ _ => opcodeLdi
  | .prn _ => opcodePrn
  | .mul _ _ => opcodeMul
  | .cmp _ _ => opcodeCmp
  | .jmp _ => opcodeJmp
  | .jeq _ => opcodeJeq
  | .jne _ => opcodeJne

/-- The operand bytes in ascending address order (`30_encoding.md` R51, `20_memory.md` R35). -/
def Instr.operands : Instr → List Operand
  | .hlt => []
  | .ldi reg imm8 => [reg, imm8]
  | .prn reg => [reg]
  | .mul regA regB => [regA, regB]
  | .cmp regA regB => [regA, regB]
  | .jmp reg => [reg]
  | .jeq reg => [reg]
  | .jne reg => [reg]

/-- The bytes of an instruction at ascending addresses, the opcode first (`30_encoding.md` R50, R51). A missing operand
(no well-formed instruction has one) has no byte. -/
def encode (i : Instr) : List Byte :=
  i.opcode :: i.operands.filterMap id

/-! ## The opcode table's words -/

/-- `n` bytes of a number, the least significant first. -/
def bytesOfNat : Nat → Nat → List Byte
  | 0, _ => []
  | n + 1, w => BitVec.ofNat 8 w :: bytesOfNat n (w / 256)

/-- The bytes, at ascending addresses, of an instruction whose `nbits` low bits are `w`, numbered as the opcode table numbers
them: the first byte (the opcode) holds bits 7..0, the second bits 15..8, the third bits 23..16. Bits above `nbits` are 0. -/
def tableBytes (nbits w : Nat) : List Byte :=
  bytesOfNat maxLength (w % 2 ^ nbits)

/-- What the decoder reads from an opcode-table word. -/
def decodeTableWord (nbits w : Nat) : Option Instr :=
  match decode (tableBytes nbits w) with
  | .ok i => some i
  | .error _ => none

end Sys2Proof
end

