-- ==== Sys2Proof/Machine/State.lean ====
section
/-! DEFINITION. The state of the machine, all that the spec gives it (`10_state.md`), as plain data; the reasons a run ends; the
state after reset (`70_reset_and_hazards.md` R130). -/

namespace Sys2Proof.Machine

/-- The faults the core can record in RUN, each with the information of `60_exceptions.md` R117 (D7). All are raised by a cycle
through `State.raise`, which takes the machine to Faulted, and `step` answers with the recorded one once it is there (log 5).
Safe: each stands where the spec says the run ends with that error. -/
inductive Fault where
  /-- IllegalInstruction (R111): raised by the decode phase of a cycle on an opcode byte outside the eight. Safe: the spec ends the run. -/
  | illegalInstruction (opcode : Byte)
  /-- OutOfBounds, memory (R112): raised by a memory access at 256 or above: the fetch, an operand read, a loader's write. Safe: the spec ends the run. -/
  | outOfBoundsMem (addr : Nat)
  /-- OutOfBounds, register (R113): raised by an instruction that uses a register operand byte above 7. Safe: the spec ends the run. -/
  | outOfBoundsReg (operand : Byte)
  /-- UnsupportedOperation (R114): raised by the ALU block on an unknown operation tag, which no instruction produces. Safe: the spec ends the run. -/
  | unsupportedOperation
deriving DecidableEq, Repr

/-- Why the model itself gives an instruction no meaning. No arm of `exec` answers it: every instruction is modelled. -/
inductive Refusal where
  /-- The instruction of that mnemonic has no meaning in the model yet. Raised by no arm. Safe: it stops where the hardware goes on. -/
  | notModelled (mnemonic : String)
deriving DecidableEq, Repr

/-- RUN, the dispatcher's state (`10_state.md` R24): Running, or one of the two terminal states. -/
inductive RunStatus where
  | running
  | halted
  | faulted (fault : Fault)
deriving DecidableEq, Repr

/-- The four error kinds the source counts (`60_exceptions.md` R116). -/
inductive FaultKind where
  | illegalInstruction
  | outOfBounds
  | unsupportedOperation
  /-- Raised by the host loader while it reads the program file, never by the core (R115). -/
  | programLoadError
deriving DecidableEq, Repr

/-- Memory as the cells that differ from the reset contents, in rising order of address (`Memory.wf`). DESIGN CHOICE, log 13. -/
abbrev Memory := List Host.Cell

/-- What a cell that is not listed reads as: the reset contents of memory, 0x00 (`10_state.md` R23). -/
def Memory.unlisted : Byte := 0x00

/-- The canonical form, for cells at `lowest` and above: addresses strictly rise, all lie in memory, no cell is listed with the
value an unlisted one reads as. -/
def Memory.wfFrom : Nat → Memory → Bool
  | _, [] => true
  | lowest, (a, v) :: rest =>
    decide (lowest ≤ a) && decide (a < memSize) && decide (v ≠ Memory.unlisted) && Memory.wfFrom (a + 1) rest

/-- The canonical form of a memory: equal memories are equal lists. -/
def Memory.wf (m : Memory) : Bool := Memory.wfFrom 0 m

/-- Everything the spec gives the machine (`10_state.md` R10 to R25; R27: there is nothing else). -/
structure State where
  /-- `x[0]`..`x[7]`, R0..R7 (R10). -/
  regs : Vector Byte numRegs
  /-- PC, an unsigned number that never wraps (R14, `00_scope.md` R153; a natural number: DESIGN CHOICE, log 3). -/
  pc : Nat
  /-- FL, the flags register; bit 0 is the equal flag E (R18). -/
  fl : Byte
  /-- IR, the opcode byte most recently fetched (R22). -/
  ir : Byte
  /-- `M[0]`..`M[255]` (R23). -/
  mem : Memory
  /-- RUN (R24). -/
  run : RunStatus
  /-- OUT, the values emitted so far, the first one first (R25). -/
  out : List Byte
deriving DecidableEq, Repr

/-- The machine right after reset, before a program is loaded (`70_reset_and_hazards.md` R130). FL is the spec's decision D2
(UNVERIFIED, log 1); IR's value is the model's, DESIGN CHOICE 0x00 (log 2), and nothing reads it. -/
def State.reset : State where
  regs := #v[0x00, 0x00, 0x00, 0x00, 0x00, 0x00, 0x00, 0xF4]
  pc := 0
  fl := 0x00
  ir := 0x00
  mem := []
  run := .running
  out := []

end Sys2Proof.Machine
end

