-- ==== Sys2Proof/Machine/Ops.lean ====
section
/-! DEFINITION. The named operations over memory, registers, the program counter, the output and RUN. Meanings are written over
these. Taking a fault is ONE operation here, `State.raise`; there is no return from a fault (`60_exceptions.md` R122). -/

namespace Sys2Proof.Machine

/-! ## Memory (`20_memory.md`) -/

/-- The contents of a cell: the listed byte, or what an unlisted cell reads as. -/
def Memory.get : Memory → Nat → Byte
  | [], _ => Memory.unlisted
  | (b, v) :: rest, a => if b = a then v else Memory.get rest a

/-- Put a byte in front of cells that all lie at higher addresses, unlisted if it is what an unlisted cell reads as. -/
def Memory.cons (a : Nat) (v : Byte) (rest : Memory) : Memory :=
  if v = Memory.unlisted then rest else (a, v) :: rest

/-- Change the contents of one cell, keeping the canonical form. -/
def Memory.put : Memory → Nat → Byte → Memory
  | [], a, v => Memory.cons a v []
  | (b, w) :: rest, a, v =>
    if a < b then Memory.cons a v ((b, w) :: rest)
    else if a = b then Memory.cons a v rest
    else (b, w) :: Memory.put rest a v

/-- `MemRead(addr, 1)`: the range check, then the byte; memory is not changed (`20_memory.md` R31, R33). -/
def Memory.read (m : Memory) (addr : Nat) : Except Fault Byte :=
  if addr < memSize then .ok (m.get addr) else .error (.outOfBoundsMem addr)

/-- `MemWrite(addr, 1, v)`: the range check, then only this cell changes (`20_memory.md` R32, R33). No instruction performs it
(R34); the loader does. -/
def Memory.write (m : Memory) (addr : Nat) (v : Byte) : Except Fault Memory :=
  if addr < memSize then .ok (m.put addr v) else .error (.outOfBoundsMem addr)

/-- The bytes at `addr`, `addr + 1`, …, at most `n`, as far as they lie in memory. -/
def Memory.bytesFrom (m : Memory) : Nat → Nat → List Byte
  | _, 0 => []
  | addr, n + 1 =>
    match m.read addr with
    | .ok b => b :: m.bytesFrom (addr + 1) n
    | .error _ => []

/-! ## Registers, flags register, instruction register (`10_state.md`) -/

/-- `x[r]` (`10_state.md` R10, R11: no register is special). -/
def State.reg (s : State) (r : RegIndex) : Byte := s.regs.get r

/-- `x[r] <- v`. -/
def State.setReg (s : State) (r : RegIndex) (v : Byte) : State := { s with regs := s.regs.set r v }

/-- `FL <- v`. -/
def State.setFl (s : State) (v : Byte) : State := { s with fl := v }

/-- `IR <- opcode`, done by a fetch that succeeds (`41_execution_cycle.md` R81). -/
def State.setIr (s : State) (opcode : Byte) : State := { s with ir := opcode }

/-! ## Program counter (`10_state.md` R15, `41_execution_cycle.md` R84) -/

/-- Past an instruction of `len` bytes: the net effect of the handler's advance and the loop's increment (R84). -/
def State.advance (s : State) (len : Nat) : State := { s with pc := s.pc + len }

/-- `pc <- zext(target)`: the net effect of a taken jump (`43_jumps.md` R95, R98). -/
def State.jumpTo (s : State) (target : Byte) : State := { s with pc := target.toNat }

/-! ## Output and run status -/

/-- `Out(v)`: append one value to OUT (`42_ldi_prn.md` R91, `10_state.md` R25). -/
def State.emit (s : State) (v : Byte) : State := { s with out := s.out ++ [v] }

/-- `RUN <- Halted` (`41_execution_cycle.md` R82). -/
def State.halt (s : State) : State := { s with run := .halted }

/-- Taking a fault: `RUN <- Faulted(cause, info)`, every other piece of state as it is (`60_exceptions.md` R110, R118). `s` is the
state at the instruction boundary with IR already fetched, where the fetch succeeded. -/
def State.raise (s : State) (f : Fault) : State := { s with run := .faulted f }

/-- End the execute phase that began in `s`: its result, or the fault that one of its checks raised, taken in `s` itself, so that
nothing the abandoned phase computed survives (`60_exceptions.md` R118). -/
def State.conclude (s : State) : Except Fault State → Host.Outcome State Fault Refusal
  | .ok t => .next t
  | .error f => .next (s.raise f)

/-! ## Fault kinds and codes (`60_exceptions.md` R116) -/

/-- The kind of a fault: both OutOfBounds faults are of one kind (R113). -/
def Fault.kind : Fault → FaultKind
  | .illegalInstruction _ => .illegalInstruction
  | .outOfBoundsMem _ => .outOfBounds
  | .outOfBoundsReg _ => .outOfBounds
  | .unsupportedOperation => .unsupportedOperation

/-- The cause code of a kind (R116, the spec's decision D6; UNVERIFIED, log 15). -/
def FaultKind.code : FaultKind → Nat
  | .illegalInstruction => 1
  | .outOfBounds => 2
  | .unsupportedOperation => 3
  | .programLoadError => 4

/-- The error kind the host sees, if the run ended in a fault (`50_interfaces.md` R103). -/
def RunStatus.faultKind : RunStatus → Option FaultKind
  | .running => none
  | .halted => none
  | .faulted f => some f.kind

/-- The fault code: 0 while Running or Halted (R116, `70_reset_and_hazards.md` R130). -/
def RunStatus.code (r : RunStatus) : Nat :=
  match r.faultKind with
  | none => 0
  | some k => k.code

/-! ## The start interface (`50_interfaces.md` R104) -/

/-- The loader's writes, one byte after another from `addr` on (`70_reset_and_hazards.md` R131). An image that runs past the end of
memory meets the write contract's OutOfBounds (`20_memory.md` R32; log 8). -/
def Memory.load (m : Memory) : Nat → List Byte → Except Fault Memory
  | _, [] => .ok m
  | addr, b :: rest =>
    match m.write addr b with
    | .ok m' => Memory.load m' (addr + 1) rest
    | .error f => .error f

/-- Program load: the image goes to memory from address 0 up and nothing else changes (`70_reset_and_hazards.md` R131). -/
def State.load (s : State) (image : List Byte) : Except Fault State :=
  match s.mem.load 0 image with
  | .ok m => .ok { s with mem := m }
  | .error f => .error f

/-- Reset, then load: the state at the first cycle (`50_interfaces.md` R104, `70_reset_and_hazards.md` R131). -/
def boot (image : List Byte) : Except Fault State := State.reset.load image

end Sys2Proof.Machine
end

