-- ==== Sys2Proof/Machine/Flags.lean ====
section
/-! DEFINITION. The flags register's one computation and its one test (`10_state.md` R18, R19; `40_alu.md` R73). -/

namespace Sys2Proof.Machine

/-- The mask of bit 0 of FL, the equal flag E; bit 0 is the least significant (`10_state.md` R18, D4; UNVERIFIED, log 12). -/
def equalMask : Byte := 0x01

/-- The new FL after comparing `x` and `y`: bit 0 set and the other bits kept if they are equal, the WHOLE register cleared if
not (`40_alu.md` R73, `90_conflicts.md` C1; UNVERIFIED, log 11). -/
def compareFlags (fl x y : Byte) : Byte :=
  if x = y then fl ||| equalMask else 0x00

/-- `FL[0] = 1`, bit 0 alone (`43_jumps.md` R96, R97). -/
def State.equalFlag (s : State) : Bool := s.fl.getLsbD 0

end Sys2Proof.Machine
end

