-- ==== Sys2Proof/Machine/Operands.lean ====
section
/-! DEFINITION. The operand forms of the instruction formats (`30_encoding.md` R51): first every operand byte is read, at
ascending addresses, then the register bytes are checked in operand order (`41_execution_cycle.md` R85, `60_exceptions.md` R119, D9;
UNVERIFIED, log 9). -/

namespace Sys2Proof.Machine

/-- `RegIdx(b)`: the whole byte is the index, never masked; above 7 is OutOfBounds (`30_encoding.md` R54). -/
def regIdx (b : Byte) : Except Fault RegIndex :=
  if h : b.toNat < numRegs then .ok ⟨b.toNat, h⟩ else .error (.outOfBoundsReg b)

/-- `MemRead(addr, 1)` of the operand byte at `addr`: the decoder has put the byte into the instruction; a missing one lies outside
memory and raises OutOfBounds (`20_memory.md` R31, `60_exceptions.md` R112; log 4). -/
def operandByte (o : Operand) (addr : Nat) : Except Fault Byte :=
  match o with
  | some b => .ok b
  | none => .error (.outOfBoundsMem addr)

/-- Format OP_R at `pc`: one register (`30_encoding.md` R51). -/
def operandsR (reg : Operand) (pc : Nat) : Except Fault RegIndex := do
  let br ← operandByte reg (pc + 1)
  regIdx br

/-- Format OP_R_I at `pc`: a register and an immediate, used as it stands (`30_encoding.md` R51, R53). -/
def operandsRI (reg imm8 : Operand) (pc : Nat) : Except Fault (RegIndex × Byte) := do
  let br ← operandByte reg (pc + 1)
  let v ← operandByte imm8 (pc + 2)
  let r ← regIdx br
  return (r, v)

/-- Format OP_R_R at `pc`: two registers (`30_encoding.md` R51). -/
def operandsRR (regA regB : Operand) (pc : Nat) : Except Fault (RegIndex × RegIndex) := do
  let ba ← operandByte regA (pc + 1)
  let bb ← operandByte regB (pc + 2)
  let a ← regIdx ba
  let b ← regIdx bb
  return (a, b)

end Sys2Proof.Machine
end

