-- ==== Sys2Proof/Machine/Alu.lean ====
section
/-! DEFINITION. The ALU block (`40_alu.md` R70 to R75, R78, R79) and the instructions that use it, MUL (R76) and CMP (R77). -/

namespace Sys2Proof.Machine

/-- The ALU's operation input (`40_alu.md` R70). `other` stands for any tag that is none of the three (R74); the tag has no
architectural encoding (D18; DESIGN CHOICE, log 7) and the decoder never produces `add` or `other` (R78, R74). -/
inductive AluOp where
  | add
  | multiply
  | compare
  | other
deriving DecidableEq, Repr

/-- Add: the exact sum modulo 256, the carry discarded (`40_alu.md` R71). -/
def aluAdd (x y : Byte) : Byte := BitVec.ofNat 8 (x.toNat + y.toNat)

/-- Multiply: the exact product modulo 256, the high byte discarded (`40_alu.md` R72). -/
def aluMultiply (x y : Byte) : Byte := BitVec.ofNat 8 (x.toNat * y.toNat)

/-- `apply(operation, register_a, register_b)` (`40_alu.md` R70): both registers are read, then `x[a]` or FL is written and nothing
else; an unknown tag is UnsupportedOperation (R74). The indices are valid by their type (R75). -/
def State.alu (s : State) (op : AluOp) (a b : RegIndex) : Except Fault State :=
  match op with
  | .add => .ok (s.setReg a (aluAdd (s.reg a) (s.reg b)))
  | .multiply => .ok (s.setReg a (aluMultiply (s.reg a) (s.reg b)))
  | .compare => .ok (s.setFl (compareFlags s.fl (s.reg a) (s.reg b)))
  | .other => .error .unsupportedOperation

/-- An ALU instruction of format OP_R_R: operands, the ALU, past its three bytes (`40_alu.md` R76, R77). -/
def aluInstr (op : AluOp) (regA regB : Operand) (s : State) : Except Fault State := do
  let (a, b) ← operandsRR regA regB s.pc
  let t ← s.alu op a b
  return t.advance 3

/-- MUL reg_a, reg_b: `x[a] <- (x[a] * x[b]) mod 256`; FL unchanged (`40_alu.md` R76). -/
def execMul (regA regB : Operand) (s : State) : Host.Outcome State Fault Refusal :=
  s.conclude (aluInstr .multiply regA regB s)

/-- CMP reg_a, reg_b: FL from comparing `x[a]` and `x[b]`; no register is written (`40_alu.md` R77). -/
def execCmp (regA regB : Operand) (s : State) : Host.Outcome State Fault Refusal :=
  s.conclude (aluInstr .compare regA regB s)

end Sys2Proof.Machine
end

