-- ==== Sys2Proof/Machine/Data.lean ====
section
/-! DEFINITION. Data movement: LDI (`42_ldi_prn.md` R90) and PRN (R91). -/

namespace Sys2Proof.Machine

/-- LDI reg, imm8: `x[r] <- v`, past its three bytes (`42_ldi_prn.md` R90). -/
def execLdi (reg imm8 : Operand) (s : State) : Host.Outcome State Fault Refusal :=
  s.conclude do
    let (r, v) ← operandsRI reg imm8 s.pc
    return (s.setReg r v).advance 3

/-- PRN reg: `Out(x[r])`, past its two bytes; when it faults nothing is emitted (`42_ldi_prn.md` R91). -/
def execPrn (reg : Operand) (s : State) : Host.Outcome State Fault Refusal :=
  s.conclude do
    let r ← operandsR reg s.pc
    return (s.emit (s.reg r)).advance 2

end Sys2Proof.Machine
end

