-- ==== Sys2Proof/Machine/Halt.lean ====
section
/-! DEFINITION. HLT (`41_execution_cycle.md` R82). -/

namespace Sys2Proof.Machine

/-- HLT: `RUN <- Halted`; the program counter stays at the HLT byte and nothing else changes (`41_execution_cycle.md` R82). -/
def execHlt (s : State) : Host.Outcome State Fault Refusal :=
  .next s.halt

end Sys2Proof.Machine
end

