-- ==== Sys2Proof/Machine/Jump.lean ====
section
/-! DEFINITION. Control transfer: JMP, JEQ, JNE (`43_jumps.md` R95 to R99). -/

namespace Sys2Proof.Machine

/-- The taken path, the same for the three jumps: `pc <- zext(x[r])` (`43_jumps.md` R95, R98). -/
def takeJump (reg : Operand) (s : State) : Except Fault State := do
  let r ← operandsR reg s.pc
  return s.jumpTo (s.reg r)

/-- The conditional jumps: the taken path, or past the two bytes with the operand neither read nor checked (`43_jumps.md` R99,
D10; UNVERIFIED, log 10). -/
def jumpIf (taken : Bool) (reg : Operand) (s : State) : Except Fault State :=
  if taken then takeJump reg s else .ok (s.advance 2)

/-- JMP reg (`43_jumps.md` R95). -/
def execJmp (reg : Operand) (s : State) : Host.Outcome State Fault Refusal :=
  s.conclude (takeJump reg s)

/-- JEQ reg: taken when the equal flag is set (`43_jumps.md` R96). -/
def execJeq (reg : Operand) (s : State) : Host.Outcome State Fault Refusal :=
  s.conclude (jumpIf s.equalFlag reg s)

/-- JNE reg: taken when the equal flag is clear (`43_jumps.md` R97). -/
def execJne (reg : Operand) (s : State) : Host.Outcome State Fault Refusal :=
  s.conclude (jumpIf (!s.equalFlag) reg s)

end Sys2Proof.Machine
end

