-- ==== Sys2Proof/Machine/Dispatch.lean ====
section
/-! DEFINITION. The dispatcher's table: one arm per instruction (`30_encoding.md` R55). `exec i s` is the execute phase of `i` in
the state `s` after the fetch; it does not look at RUN (DESIGN CHOICE, log 14). -/

namespace Sys2Proof.Machine

def exec (i : Instr) (s : State) : Host.Outcome State Fault Refusal :=
  match i with
  | .hlt => Sys2Proof.Machine.execHlt s
  | .ldi reg imm8 => Sys2Proof.Machine.execLdi reg imm8 s
  | .prn reg => Sys2Proof.Machine.execPrn reg s
  | .mul regA regB => Sys2Proof.Machine.execMul regA regB s
  | .cmp regA regB => Sys2Proof.Machine.execCmp regA regB s
  | .jmp reg => Sys2Proof.Machine.execJmp reg s
  | .jeq reg => Sys2Proof.Machine.execJeq reg s
  | .jne reg => Sys2Proof.Machine.execJne reg s

end Sys2Proof.Machine
end

