-- ==== Sys2Proof/Machine/Cycle.lean ====
section
/-! DEFINITION. One fetch-decode-execute cycle (`41_execution_cycle.md` R80 to R85), and how a word is placed where the next cycle
fetches. -/

namespace Sys2Proof.Machine

/-- The bytes after the opcode, as far as they lie in memory: at most two (`30_encoding.md` R50). Looking at them has no side effect
(`20_memory.md` R37); that an operand lies outside memory is the executing instruction's business (log 4). -/
def State.operandBytes (s : State) : List Byte := s.mem.bytesFrom (s.pc + 1) (maxLength - 1)

/-- One cycle of a Running machine: fetch (R81), decode (R83), execute. Each fault of fetch and decode is taken here, each fault
of an operand in the instruction's meaning; IR is written exactly when the fetch succeeds (R81, `60_exceptions.md` R118, R119). -/
def State.cycle (s : State) : Host.Outcome State Fault Refusal :=
  match s.mem.read s.pc with
  | .error f => .next (s.raise f)
  | .ok opcode =>
    match decodeOpcode opcode s.operandBytes with
    | some i => exec i (s.setIr opcode)
    | none => .next ((s.setIr opcode).raise (.illegalInstruction opcode))

/-- Store bytes at `addr` and up, as far as they lie in memory. -/
def Memory.storeBytes (m : Memory) : Nat → List Byte → Memory
  | _, [] => m
  | addr, b :: rest =>
    match m.write addr b with
    | .ok m' => Memory.storeBytes m' (addr + 1) rest
    | .error _ => m

/-- Make the next cycle fetch these bytes: they stand at PC, and the machine is Running (log 8). -/
def State.placeAtPc (s : State) (bytes : List Byte) : State :=
  { s with mem := s.mem.storeBytes s.pc bytes, run := .running }

end Sys2Proof.Machine
end

