-- ==== Sys2Proof/Machine/Step.lean ====
section
/-! DEFINITION. The step of the machine, and the placing of an instruction where the step fetches it. -/

namespace Sys2Proof.Machine

/-- One step. Running: one cycle (`41_execution_cycle.md` R80). Halted: no cycle runs and no state changes (`10_state.md` R24; DESIGN CHOICE, log 6).
Faulted: no cycle runs; the recorded error is what the caller is told (`60_exceptions.md` R110, `50_interfaces.md` R103;
DESIGN CHOICE, log 5). -/
def step (s : State) : Host.Outcome State Fault Refusal :=
  match s.run with
  | .running => s.cycle
  | .halted => .next s
  | .faulted f => .fault f

/-- `s` with the instruction of an opcode-table word where the next step fetches: at PC and up, first byte lowest, the machine
Running. With PC at 254 or above not all of it fits into memory and the rest is not stored (log 8). -/
def State.withFetchWord (s : State) (nbits w : Nat) : State := s.placeAtPc (tableBytes nbits w)

end Sys2Proof.Machine
end

