-- ==== Sys2Proof/Machine/Text.lean ====
section
/-! DEFINITION. Names and text on the host's side of the machine: the Mnemonic Table (`10_state.md` R26) and the text the output
collaborator writes (`50_interfaces.md` R102). No step uses them. -/

namespace Sys2Proof

/-- The name of an instruction (`30_encoding.md` R55). -/
def Instr.mnemonic : Instr → String
  | .hlt => "HLT"
  | .ldi _ _ => "LDI"
  | .prn _ => "PRN"
  | .mul _ _ => "MUL"
  | .cmp _ _ => "CMP"
  | .jmp _ => "JMP"
  | .jeq _ => "JEQ"
  | .jne _ => "JNE"

/-- The Mnemonic Table: from an instruction's name to its opcode byte (`10_state.md` R26; its content is `30_encoding.md` R55). -/
def mnemonicTable : List (String × Byte) :=
  [("HLT", opcodeHlt), ("LDI", opcodeLdi), ("PRN", opcodePrn), ("MUL", opcodeMul),
   ("CMP", opcodeCmp), ("JMP", opcodeJmp), ("JEQ", opcodeJeq), ("JNE", opcodeJne)]

namespace Machine

/-- The decimal digits of a byte, the most significant first, without leading zeros (`50_interfaces.md` R102, D13; log 18). -/
def decimalDigits (b : Byte) : List Nat :=
  if b.toNat < 10 then [b.toNat]
  else if b.toNat < 100 then [b.toNat / 10, b.toNat % 10]
  else [b.toNat / 100, b.toNat / 10 % 10, b.toNat % 10]

/-- One emitted value as text: its digits, then a line feed (`50_interfaces.md` R102, D13; log 18). -/
def renderByte (b : Byte) : List Char :=
  (decimalDigits b).map (fun d => Char.ofNat (48 + d)) ++ [Char.ofNat 10]

/-- What the output collaborator has written for the values emitted so far (`50_interfaces.md` R102). -/
def State.outText (s : State) : List Char := s.out.flatMap renderByte

end Machine

end Sys2Proof
end

