-- ==== Sys2Proof/WellFormed.lean ====
section
/-! DEFINITION. Which instructions are well formed: all operand bytes lie in memory, and each register byte is a valid register
index (`30_encoding.md` R51, R54, R57). The machine also gives every ill-formed instruction its behaviour (a fault, or for a
not-taken jump none): well-formedness says which terms stand for a whole, valid encoding. -/

namespace Sys2Proof

/-- A register operand: present, and 0 to 7 (`30_encoding.md` R54). -/
def Operand.isReg : Operand → Bool
  | some b => decide (b.toNat < numRegs)
  | none => false

/-- An immediate operand: present; every value is valid (`30_encoding.md` R53, R57). -/
def Operand.isImm : Operand → Bool
  | some _ => true
  | none => false

/-- A whole, valid instruction (`30_encoding.md` R51, R54, R57). -/
def Instr.wellFormed : Instr → Bool
  | .hlt => true
  | .ldi reg imm8 => Operand.isReg reg && Operand.isImm imm8
  | .prn reg => Operand.isReg reg
  | .mul regA regB => Operand.isReg regA && Operand.isReg regB
  | .cmp regA regB => Operand.isReg regA && Operand.isReg regB
  | .jmp reg => Operand.isReg reg
  | .jeq reg => Operand.isReg reg
  | .jne reg => Operand.isReg reg

end Sys2Proof
end

