-- ==== Sys2Proof/Safety.lean ====
section
/-! DEFINITION. The terms the statements use: agreement of two states on a part, the machine's invariant, what a safe run is, and
the exchange of two registers. -/

namespace Sys2Proof

/-- `b` with the register numbers `p` and `q` exchanged; a byte that names neither stays. -/
def swapByte (p q : RegIndex) (b : Byte) : Byte :=
  if b.toNat = p.val then BitVec.ofNat 8 q.val
  else if b.toNat = q.val then BitVec.ofNat 8 p.val
  else b

/-- An instruction with registers `p` and `q` exchanged in its register operands; LDI's immediate stays. -/
def Instr.swapRegs (p q : RegIndex) : Instr → Instr
  | .hlt => .hlt
  | .ldi reg imm8 => .ldi (reg.map (swapByte p q)) imm8
  | .prn reg => .prn (reg.map (swapByte p q))
  | .mul regA regB => .mul (regA.map (swapByte p q)) (regB.map (swapByte p q))
  | .cmp regA regB => .cmp (regA.map (swapByte p q)) (regB.map (swapByte p q))
  | .jmp reg => .jmp (reg.map (swapByte p q))
  | .jeq reg => .jeq (reg.map (swapByte p q))
  | .jne reg => .jne (reg.map (swapByte p q))

end Sys2Proof

namespace Sys2Proof.Machine

/-- Every byte of memory reads in `t` as in `s`, the addresses outside memory included. -/
def SameMemory (s t : State) : Prop := ∀ a, t.mem.read a = s.mem.read a

/-- Every register holds in `t` what it holds in `s`. -/
def SameRegs (s t : State) : Prop := ∀ r, t.reg r = s.reg r

/-- Every register but `dest` holds in `t` what it holds in `s`. -/
def SameRegsBut (dest : RegIndex) (s t : State) : Prop := ∀ r, r ≠ dest → t.reg r = s.reg r

/-- The information recorded with a fault is as `60_exceptions.md` R117 bounds it: an illegal opcode is none of the eight, an address
is 256 or 257, a register byte is above 7, and UnsupportedOperation is never there (R114). -/
def Fault.legal : Fault → Prop
  | .illegalInstruction op => decodeOpcode op [] = none
  | .outOfBoundsMem addr => addr = 256 ∨ addr = 257
  | .outOfBoundsReg b => 8 ≤ b.toNat
  | .unsupportedOperation => False

/-- RUN is legal: a recorded fault is. -/
def RunStatus.legal : RunStatus → Prop
  | .running => True
  | .halted => True
  | .faulted f => f.legal

/-- What holds at every instruction boundary: memory is in its canonical form, PC lies in 0..257 (`10_state.md` R16), FL's reserved
bits are 0 (R21), and a recorded fault is one the core can raise (`60_exceptions.md` R117). -/
structure Inv (s : State) : Prop where
  memory : s.mem.wf = true
  pc : s.pc ≤ 257
  flags : s.fl = 0x00 ∨ s.fl = 0x01
  run : s.run.legal

/-- `t` comes from `s` by some number of steps. -/
inductive Reaches : State → State → Prop where
  | refl (s : State) : Reaches s s
  | tail {s t u : State} : Reaches s t → step t = .next u → Reaches s u

/-- A safe run: from `s` the machine never enters Faulted (`60_exceptions.md` R110). A run for ever is safe (`70_reset_and_hazards.md`
R137). -/
def SafeRun (s : State) : Prop := ∀ t, Reaches s t → ∀ f, t.run ≠ .faulted f

/-- A state with the contents of registers `p` and `q` exchanged and all else as it is. -/
def State.swapRegs (p q : RegIndex) (s : State) : State :=
  (s.setReg p (s.reg q)).setReg q (s.reg p)

end Sys2Proof.Machine
end

