-- ==== Sys2Proof/Certificates/Slice0/Obligations.lean ====
section
/-! DEFINITION. The statements for the provers. Where a statement's docstring says "decision", the clause is the spec's own
decision D<n> of `92_eei_decisions.md`, not the source's; where it says "log <n>", it is the model's choice. -/

open Sys2Proof Sys2Proof.Machine

/-! ## Encoding (`30_encoding.md`) -/

/-- Bytes written out bit by bit from the opcode map (R55) and the formats (R51) decode to the instruction they stand for. -/
def Obligations.WrittenOutBytesDecode : Prop :=
  decode [0b00000001] = .ok .hlt ∧
  decode [0b10000010, 0b00000011, 0b11111111] = .ok (.ldi (some 3) (some 255)) ∧
  decode [0b01000111, 0b00000111] = .ok (.prn (some 7)) ∧
  decode [0b10100010, 0b00000000, 0b00000001] = .ok (.mul (some 0) (some 1)) ∧
  decode [0b10100111, 0b00000101, 0b00000010] = .ok (.cmp (some 5) (some 2)) ∧
  decode [0b01010100, 0b00000010] = .ok (.jmp (some 2)) ∧
  decode [0b01010101, 0b00001001] = .ok (.jeq (some 9)) ∧
  decode [0b01010110, 0b00000011] = .ok (.jne (some 3))

/-- Decoding the bytes of any well-formed instruction, whatever bytes follow them, gives the instruction back (R51, R55). -/
def Obligations.DecodeOfEncode : Prop :=
  ∀ (i : Instr) (rest : List Byte), i.wellFormed = true → decode (encode i ++ rest) = .ok i

/-- Any bytes that decode to an instruction begin with exactly its encoding, as far as they go: no byte is read as something
else or dropped (R50, R51, R58). An operand outside memory as `none` is the model's choice, log 4. -/
def Obligations.EncodeOfDecode : Prop :=
  ∀ (bytes : List Byte) (i : Instr), decode bytes = .ok i → encode i = bytes.take i.length

/-- R56: the 248 opcode bytes outside the eight are rejected by the decoder whatever follows them, and a Running cycle that fetches
one ends in IllegalInstruction. -/
def Obligations.OpcodesOutsideTheEightAreIllegal : Prop :=
  (∀ (op : Byte) (rest : List Byte),
    decode (op :: rest) = .error (.illegalOpcode op) ↔
      op ∉ [(0x01 : Byte), 0x82, 0x47, 0xA2, 0xA7, 0x54, 0x55, 0x56]) ∧
  ((List.range 256).countP
    fun n => decide (BitVec.ofNat 8 n ∉ [(0x01 : Byte), 0x82, 0x47, 0xA2, 0xA7, 0x54, 0x55, 0x56])) = 248 ∧
  (∀ (s : State) (op : Byte), s.run = .running → s.mem.read s.pc = .ok op →
    op ∉ [(0x01 : Byte), 0x82, 0x47, 0xA2, 0xA7, 0x54, 0x55, 0x56] →
    ∃ t, step s = .next t ∧ t.run.faultKind = some .illegalInstruction)

/-- The opcode byte alone fixes the length: HLT 1; PRN, JMP, JEQ, JNE 2; LDI, MUL, CMP 3 (R50, R58). -/
def Obligations.OpcodeFixesLength : Prop :=
  ∀ (op : Byte) (rest : List Byte) (i : Instr), decode (op :: rest) = .ok i →
    i.opcode = op ∧
    ((op = 0x01 ∧ i.length = 1) ∨
     (op ∈ [(0x47 : Byte), 0x54, 0x55, 0x56] ∧ i.length = 2) ∨
     (op ∈ [(0x82 : Byte), 0xA2, 0xA7] ∧ i.length = 3))

/-! ## Reset and load (`10_state.md`, `70_reset_and_hazards.md`) -/

/-- R13: registers 0 to 6 are 0 at reset, register 7 is 0xF4. -/
def Obligations.ResetRegisters : Prop :=
  (∀ r : RegIndex, r.val ≤ 6 → State.reset.reg r = 0x00) ∧ (State.reset.reg 7).toNat = 244

/-- R17: at reset the machine is Running at PC = 0, and no image changes that. -/
def Obligations.StartsRunningAtZero : Prop :=
  State.reset.pc = 0 ∧ State.reset.run = .running ∧
  ∀ (image : List Byte) (s : State), boot image = .ok s → s.pc = 0 ∧ s.run = .running

/-- Memory, FL, OUT and the fault code at reset (R130). FL = 0x00 is decision D2, log 1; the fault code's number is decision D6,
log 15. -/
def Obligations.ResetMemoryFlagsOutput : Prop :=
  (∀ a, a < 256 → State.reset.mem.read a = .ok 0x00) ∧ State.reset.fl = 0x00 ∧ State.reset.out = [] ∧
  State.reset.run.code = 0

/-- Loading an image of at most 256 bytes puts it at address 0 and up, leaves the other cells 0x00 and touches nothing but
memory (R131). A longer image meets the write contract's OutOfBounds at address 256; the spec calls that failure the host's and
does not model it (decision D24): that the load answers so is the model's choice, log 8. The canonical form of memory is the
model's choice, log 13. -/
def Obligations.LoaderPlacesImage : Prop :=
  ∀ image : List Byte,
    (image.length ≤ 256 → ∃ s, boot image = .ok s ∧ s.mem.wf = true ∧
      (∀ a, a < 256 → s.mem.read a = .ok (image[a]?.getD 0x00)) ∧
      SameRegs State.reset s ∧ s.pc = State.reset.pc ∧ s.fl = State.reset.fl ∧ s.ir = State.reset.ir ∧
      s.run = State.reset.run ∧ s.out = State.reset.out) ∧
    (256 < image.length → boot image = .error (.outOfBoundsMem 256))

/-! ## Memory (`20_memory.md`) -/

/-- R31: the read accessor answers the stored byte inside 0..255, and reading or writing at 256 and above is OutOfBounds. -/
def Obligations.AccessorsCheckRange : Prop :=
  ∀ (m : Memory) (a : Nat),
    (a < 256 → m.read a = .ok (m.get a)) ∧
    (256 ≤ a → m.read a = .error (.outOfBoundsMem a) ∧ ∀ v : Byte, m.write a v = .error (.outOfBoundsMem a))

/-- The write accessor: inside 0..255 only the addressed cell changes, and the canonical form is kept; at 256 and above
OutOfBounds (R32). That a memory is held in a canonical form is the model's choice, log 13. -/
def Obligations.WriteAccessorChangesOneCell : Prop :=
  ∀ (m : Memory) (a : Nat) (v : Byte), m.wf = true →
    (a < 256 → ∃ m', m.write a v = .ok m' ∧ m'.wf = true ∧ m'.read a = .ok v ∧
      ∀ c, c ≠ a → m'.read c = m.read c) ∧
    (256 ≤ a → m.write a v = .error (.outOfBoundsMem a))

/-- Canonical memories that read alike everywhere are equal data (the model's representation of R23, log 13). -/
def Obligations.CanonicalMemoriesReadingAlikeAreEqual : Prop :=
  ∀ m n : Memory, m.wf = true → n.wf = true → (∀ a, m.read a = n.read a) → m = n

/-- No step writes memory (R34, derived there; R23): whatever instruction runs, and whether or not it faults. That a fault
leaves the rest unchanged is decision D8, log 16; a step of a Halted machine is the model's choice, log 6. -/
def Obligations.NoStepWritesMemory : Prop :=
  ∀ s t : State, step s = .next t → t.mem = s.mem

/-! ## The ALU block (`40_alu.md`) -/

/-- Add on the ALU block: the sum modulo 256 in `x[a]`, nothing else changed (R71). No instruction reaches it (R78). -/
def Obligations.AluAddWraps : Prop :=
  ∀ (s : State) (a b : RegIndex), ∃ t, s.alu .add a b = .ok t ∧
    (t.reg a).toNat = ((s.reg a).toNat + (s.reg b).toNat) % 256 ∧ SameRegsBut a s t ∧
    t.fl = s.fl ∧ t.pc = s.pc ∧ t.ir = s.ir ∧ SameMemory s t ∧ t.run = s.run ∧ t.out = s.out

/-- R72: Multiply on the ALU block: the product modulo 256 in `x[a]`, FL and all else unchanged. -/
def Obligations.AluMultiplyWraps : Prop :=
  ∀ (s : State) (a b : RegIndex), ∃ t, s.alu .multiply a b = .ok t ∧
    (t.reg a).toNat = ((s.reg a).toNat * (s.reg b).toNat) % 256 ∧ SameRegsBut a s t ∧
    t.fl = s.fl ∧ t.pc = s.pc ∧ t.ir = s.ir ∧ SameMemory s t ∧ t.run = s.run ∧ t.out = s.out

/-- Compare on the ALU block, in every state: bit 0 set and bits 7..1 kept on equality, the whole of FL cleared otherwise (R73;
the full clear is decision D3, log 11). Nothing but FL changes. -/
def Obligations.AluCompareWritesFlags : Prop :=
  ∀ (s : State) (a b : RegIndex), ∃ t, s.alu .compare a b = .ok t ∧
    (s.reg a = s.reg b → t.fl.getLsbD 0 = true ∧ ∀ k, 0 < k → t.fl.getLsbD k = s.fl.getLsbD k) ∧
    (s.reg a ≠ s.reg b → t.fl = 0x00) ∧
    SameRegs s t ∧ t.pc = s.pc ∧ t.ir = s.ir ∧ SameMemory s t ∧ t.run = s.run ∧ t.out = s.out

/-- Where FL's reserved bits are 0, clearing the whole register and clearing bit 0 alone give the same FL, so the source's two
readings of Compare agree (R21, derived there; conflict C1). FL's numeric value is decision D4, log 12. -/
def Obligations.CompareReadingsAgreeOnLegalFlags : Prop :=
  ∀ (s t : State) (a b : RegIndex), (s.fl = 0x00 ∨ s.fl = 0x01) → s.alu .compare a b = .ok t →
    t.fl = (if s.reg a = s.reg b then 0x01 else 0x00) ∧
    t.fl = (if s.reg a = s.reg b then s.fl ||| 0x01 else s.fl &&& 0xFE)

/-- An unknown operation tag is UnsupportedOperation at the ALU, and no cycle of a Running machine ends in that fault (R74; that
no program can cause it is derived there). The tag `other` is the model's, log 7. That the tag has no encoding is decision
D18. -/
def Obligations.UnsupportedOperationOnlyAtTheAluBlock : Prop :=
  (∀ (s : State) (a b : RegIndex), s.alu .other a b = .error .unsupportedOperation) ∧
  (∀ s t : State, s.run = .running → step s = .next t → t.run ≠ .faulted .unsupportedOperation)

/-! ## Each instruction's own effect, with its frame -/

/-- HLT halts: RUN becomes Halted, PC stays at the HLT byte (derived in R82), nothing else changes. -/
def Obligations.HltHalts : Prop :=
  ∀ s : State, ∃ t, exec .hlt s = .next t ∧ t.run = .halted ∧ t.pc = s.pc ∧
    SameRegs s t ∧ t.fl = s.fl ∧ t.ir = s.ir ∧ SameMemory s t ∧ t.out = s.out

/-- LDI loads its immediate, every value of it, into the named register and nothing else (R90, R53). -/
def Obligations.LdiLoadsImmediate : Prop :=
  ∀ (s : State) (b v : Byte) (r : RegIndex), b.toNat = r.val →
    ∃ t, exec (.ldi (some b) (some v)) s = .next t ∧ t.reg r = v ∧ t.pc = s.pc + 3 ∧
      SameRegsBut r s t ∧ t.fl = s.fl ∧ t.ir = s.ir ∧ SameMemory s t ∧ t.run = s.run ∧ t.out = s.out

/-- PRN appends the named register's value to OUT and changes no register and no flag (R91). OUT as the list of emitted values
is decision D12, log 17. -/
def Obligations.PrnEmitsRegister : Prop :=
  ∀ (s : State) (b : Byte) (r : RegIndex), b.toNat = r.val →
    ∃ t, exec (.prn (some b)) s = .next t ∧ t.out = s.out ++ [s.reg r] ∧ t.pc = s.pc + 2 ∧
      SameRegs s t ∧ t.fl = s.fl ∧ t.ir = s.ir ∧ SameMemory s t ∧ t.run = s.run

/-- MUL writes the product modulo 256 into its first register, the same register twice included, and no flag (R76). -/
def Obligations.MulMultiplies : Prop :=
  ∀ (s : State) (x y : Byte) (a b : RegIndex), x.toNat = a.val → y.toNat = b.val →
    ∃ t, exec (.mul (some x) (some y)) s = .next t ∧
      (t.reg a).toNat = ((s.reg a).toNat * (s.reg b).toNat) % 256 ∧ t.pc = s.pc + 3 ∧
      SameRegsBut a s t ∧ t.fl = s.fl ∧ t.ir = s.ir ∧ SameMemory s t ∧ t.run = s.run ∧ t.out = s.out

/-- CMP sets the equal flag on equal registers, keeping bits 7..1, and clears the whole of FL on unequal ones (R77; the full
clear is decision D3, log 11); it writes no register. FL's numeric value is decision D4, log 12. -/
def Obligations.CmpWritesFlags : Prop :=
  ∀ (s : State) (x y : Byte) (a b : RegIndex), x.toNat = a.val → y.toNat = b.val →
    ∃ t, exec (.cmp (some x) (some y)) s = .next t ∧
      t.fl = (if s.reg a = s.reg b then s.fl ||| 0x01 else 0x00) ∧ t.pc = s.pc + 3 ∧
      SameRegs s t ∧ t.ir = s.ir ∧ SameMemory s t ∧ t.run = s.run ∧ t.out = s.out

/-- JMP goes to the address its register holds, 0 included, and changes nothing but PC (R95, R98). -/
def Obligations.JmpJumpsToRegister : Prop :=
  ∀ (s : State) (b : Byte) (r : RegIndex), b.toNat = r.val →
    ∃ t, exec (.jmp (some b)) s = .next t ∧ t.pc = (s.reg r).toNat ∧
      SameRegs s t ∧ t.fl = s.fl ∧ t.ir = s.ir ∧ SameMemory s t ∧ t.run = s.run ∧ t.out = s.out

/-- JEQ jumps to its register's address when bit 0 of FL is 1, and otherwise goes past its two bytes whatever its operand is: a
valid register, a byte above 7, or a byte outside memory (R96, R99; the unread operand is decision D10, log 10). An operand
outside memory as `none` is the model's choice, log 4. -/
def Obligations.JeqJumpsWhenEqual : Prop :=
  ∀ s : State,
    (s.fl.getLsbD 0 = true → ∀ (b : Byte) (r : RegIndex), b.toNat = r.val →
      ∃ t, exec (.jeq (some b)) s = .next t ∧ t.pc = (s.reg r).toNat ∧
        SameRegs s t ∧ t.fl = s.fl ∧ t.ir = s.ir ∧ SameMemory s t ∧ t.run = s.run ∧ t.out = s.out) ∧
    (s.fl.getLsbD 0 = false → ∀ o : Operand,
      ∃ t, exec (.jeq o) s = .next t ∧ t.pc = s.pc + 2 ∧
        SameRegs s t ∧ t.fl = s.fl ∧ t.ir = s.ir ∧ SameMemory s t ∧ t.run = s.run ∧ t.out = s.out)

/-- JNE jumps to its register's address when bit 0 of FL is 0, and otherwise goes past its two bytes whatever its operand is
(R97, R99; the unread operand is decision D10, log 10). An operand outside memory as `none` is the model's choice, log 4. -/
def Obligations.JneJumpsWhenNotEqual : Prop :=
  ∀ s : State,
    (s.fl.getLsbD 0 = false → ∀ (b : Byte) (r : RegIndex), b.toNat = r.val →
      ∃ t, exec (.jne (some b)) s = .next t ∧ t.pc = (s.reg r).toNat ∧
        SameRegs s t ∧ t.fl = s.fl ∧ t.ir = s.ir ∧ SameMemory s t ∧ t.run = s.run ∧ t.out = s.out) ∧
    (s.fl.getLsbD 0 = true → ∀ o : Operand,
      ∃ t, exec (.jne o) s = .next t ∧ t.pc = s.pc + 2 ∧
        SameRegs s t ∧ t.fl = s.fl ∧ t.ir = s.ir ∧ SameMemory s t ∧ t.run = s.run ∧ t.out = s.out)

/-- On the same flag exactly one of JEQ and JNE is taken, and the taken one does what JMP does, its faults included (R96, R97,
R99). That the jump not taken only advances PC, for an operand byte above 7 or outside memory too, is R99's reading, decision
D10, log 10; an operand outside memory as `none` is the model's choice, log 4. -/
def Obligations.JeqAndJneAreComplements : Prop :=
  ∀ (s : State) (o : Operand),
    (s.fl.getLsbD 0 = true ∧ exec (.jeq o) s = exec (.jmp o) s ∧ exec (.jne o) s = .next { s with pc := s.pc + 2 }) ∨
    (s.fl.getLsbD 0 = false ∧ exec (.jne o) s = exec (.jmp o) s ∧ exec (.jeq o) s = .next { s with pc := s.pc + 2 })

/-- After LDI r, v, PRN r emits exactly v (`95_test_vectors.md` S3; R90, R91). OUT as the list of emitted values is decision
D12, log 17. -/
def Obligations.LdiThenPrnEmitsImmediate : Prop :=
  ∀ (s t u : State) (b v : Byte), b.toNat < 8 →
    exec (.ldi (some b) (some v)) s = .next t → exec (.prn (some b)) t = .next u → u.out = s.out ++ [v]

/-! ## Operand faults (`60_exceptions.md` R112, R113, R119) -/

/-- MUL and CMP check their operands in this order: first byte in memory, second byte in memory, first byte a register, second
byte a register; the first failing check is the recorded fault and nothing but RUN changes (R112, R113, R118, R119; the order is
decision D9, log 9, the information decision D7, log 15, the unchanged state decision D8, log 16). An operand outside memory as
`none` is the model's choice, log 4. -/
def Obligations.MulAndCmpCheckOperandsInOrder : Prop :=
  ∀ (s : State) (oa ob : Operand) (i : Instr), (i = .mul oa ob ∨ i = .cmp oa ob) →
    (oa = none → exec i s = .next { s with run := .faulted (.outOfBoundsMem (s.pc + 1)) }) ∧
    (∀ x : Byte, oa = some x → ob = none →
      exec i s = .next { s with run := .faulted (.outOfBoundsMem (s.pc + 2)) }) ∧
    (∀ x y : Byte, oa = some x → ob = some y → 8 ≤ x.toNat →
      exec i s = .next { s with run := .faulted (.outOfBoundsReg x) }) ∧
    (∀ x y : Byte, oa = some x → ob = some y → x.toNat < 8 → 8 ≤ y.toNat →
      exec i s = .next { s with run := .faulted (.outOfBoundsReg y) })

/-- LDI checks its operands in this order: register byte in memory, immediate byte in memory, register byte a register (R90,
R112, R113, R118; the order is decision D9, log 9, the information decision D7, log 15, the unchanged state decision D8, log
16). An operand outside memory as `none` is the model's choice, log 4. -/
def Obligations.LdiChecksOperandsInOrder : Prop :=
  ∀ (s : State) (o v : Operand),
    (o = none → exec (.ldi o v) s = .next { s with run := .faulted (.outOfBoundsMem (s.pc + 1)) }) ∧
    (∀ b : Byte, o = some b → v = none →
      exec (.ldi o v) s = .next { s with run := .faulted (.outOfBoundsMem (s.pc + 2)) }) ∧
    (∀ b w : Byte, o = some b → v = some w → 8 ≤ b.toNat →
      exec (.ldi o v) s = .next { s with run := .faulted (.outOfBoundsReg b) })

/-- PRN, JMP, a taken JEQ and a taken JNE fault on a register byte outside memory and on one above 7, and nothing but RUN
changes (R91, R95, R96, R97, R112, R113, R118; the information is decision D7, log 15, the unchanged state decision D8, log 16).
An operand outside memory as `none` is the model's choice, log 4. -/
def Obligations.OneRegisterInstructionsCheckOperand : Prop :=
  ∀ (s : State) (o : Operand) (i : Instr),
    (i = .prn o ∨ i = .jmp o ∨ (i = .jeq o ∧ s.fl.getLsbD 0 = true) ∨ (i = .jne o ∧ s.fl.getLsbD 0 = false)) →
    (o = none → exec i s = .next { s with run := .faulted (.outOfBoundsMem (s.pc + 1)) }) ∧
    (∀ b : Byte, o = some b → 8 ≤ b.toNat → exec i s = .next { s with run := .faulted (.outOfBoundsReg b) })

/-! ## The cycle (`41_execution_cycle.md`) -/

/-- When the bytes at PC decode to an instruction, a step of a Running machine fetches its opcode into IR and executes it (R80,
R81, R83). The step moves nothing else: the instruction itself moves PC. One cycle as one step is decision D14; an operand
outside memory as `none` is the model's choice, log 4. -/
def Obligations.StepRunsDecodedInstruction : Prop :=
  ∀ (s : State) (i : Instr), s.run = .running → decode (s.mem.bytesFrom s.pc 3) = .ok i →
    step s = exec i { s with ir := i.opcode }

/-- A fetch at 256 or above ends the cycle in OutOfBounds, IR not written and all else as it was (R81, R112, R118; the
information is decision D7, log 15, the unchanged state decision D8, log 16). -/
def Obligations.FetchOutsideMemoryFaults : Prop :=
  ∀ s : State, s.run = .running → 256 ≤ s.pc →
    step s = .next { s with run := .faulted (.outOfBoundsMem s.pc) }

/-- An illegal opcode, at 255 too, ends the cycle in IllegalInstruction with IR written and all else as it was (R83, R111, R118;
the information is decision D7, log 15, the unchanged state decision D8, log 16). -/
def Obligations.IllegalOpcodeFaultsPrecisely : Prop :=
  ∀ (s : State) (op : Byte) (rest : List Byte), s.run = .running →
    s.mem.bytesFrom s.pc 3 = op :: rest → decode (op :: rest) = .error (.illegalOpcode op) →
    step s = .next { s with ir := op, run := .faulted (.illegalInstruction op) }

/-- A Running machine always takes a next state: no step of it is refused or stops without one (R80, R86; that a faulting cycle is
a next state is the model's choice, log 5). -/
def Obligations.RunningMachineAlwaysSteps : Prop :=
  ∀ s : State, s.run = .running → ∃ t, step s = .next t

/-- Halted and Faulted are terminal: a Halted machine stays as it is, a Faulted one answers with its recorded fault and has no
next state (R24, R110). That `step` answers so is the model's choice, logs 5 and 6. Faulted as a third run state is decision
D5. -/
def Obligations.TerminalStatesAreNeverLeft : Prop :=
  (∀ s : State, s.run = .halted → step s = .next s) ∧
  (∀ (s : State) (f : Fault), s.run = .faulted f → step s = .fault f)

/-- A cycle ends in Halted exactly when the byte at PC is 0x01 (R24, R82). -/
def Obligations.HaltedOnlyByHaltOpcode : Prop :=
  ∀ s t : State, s.run = .running → step s = .next t → (t.run = .halted ↔ s.mem.read s.pc = .ok 0x01)

/-- PC after each completed instruction (R15, R84, net effect: decision D11), and its value after a halt or a fault: the address
of the instruction's opcode byte (R82, R118). That PC is unchanged after a fault is R118's decision D8, log 16; after a halt it
is derived in R82; the not-taken jump's unread operand is decision D10, log 10. -/
def Obligations.ProgramCounterAfterEachInstruction : Prop :=
  ∀ (s t : State) (i : Instr), s.run = .running → decode (s.mem.bytesFrom s.pc 3) = .ok i → step s = .next t →
    (t.run ≠ .running → t.pc = s.pc) ∧
    (t.run = .running → match i with
      | .hlt => False
      | .ldi _ _ => t.pc = s.pc + 3
      | .prn _ => t.pc = s.pc + 2
      | .mul _ _ => t.pc = s.pc + 3
      | .cmp _ _ => t.pc = s.pc + 3
      | .jmp o => ∃ (b : Byte) (r : RegIndex), o = some b ∧ b.toNat = r.val ∧ t.pc = (s.reg r).toNat
      | .jeq o =>
        (s.fl.getLsbD 0 = true →
          ∃ (b : Byte) (r : RegIndex), o = some b ∧ b.toNat = r.val ∧ t.pc = (s.reg r).toNat) ∧
        (s.fl.getLsbD 0 = false → t.pc = s.pc + 2)
      | .jne o =>
        (s.fl.getLsbD 0 = false →
          ∃ (b : Byte) (r : RegIndex), o = some b ∧ b.toNat = r.val ∧ t.pc = (s.reg r).toNat) ∧
        (s.fl.getLsbD 0 = true → t.pc = s.pc + 2))

/-- Faults are precise: a cycle that ends in Faulted changes nothing but RUN and IR, and IR holds the fetched byte exactly when
the fetch succeeded (R110, R118; the unchanged state is decision D8, log 16). -/
def Obligations.FaultsArePrecise : Prop :=
  ∀ (s t : State) (f : Fault), s.run = .running → step s = .next t → t.run = .faulted f →
    SameRegs s t ∧ t.pc = s.pc ∧ t.fl = s.fl ∧ SameMemory s t ∧ t.out = s.out ∧
    (256 ≤ s.pc → t.ir = s.ir) ∧ (∀ op, s.mem.read s.pc = .ok op → t.ir = op)

/-- R91: PRN as it stands in memory, its opcode 0x47 at PC and its register byte after it. -/
def Obligations.PrnInMemory : Prop :=
  ∀ s : State, s.run = .running → s.mem.read s.pc = .ok 0x47 →
    (∀ (b : Byte) (r : RegIndex), s.mem.read (s.pc + 1) = .ok b → b.toNat = r.val →
      ∃ t, step s = .next t ∧ t.out = s.out ++ [s.reg r] ∧ t.pc = s.pc + 2 ∧ SameRegs s t ∧ t.fl = s.fl ∧
        SameMemory s t ∧ t.run = .running) ∧
    (∀ b : Byte, s.mem.read (s.pc + 1) = .ok b → 8 ≤ b.toNat →
      ∃ t, step s = .next t ∧ t.run.faultKind = some .outOfBounds ∧ t.out = s.out) ∧
    (s.pc = 255 → ∃ t, step s = .next t ∧ t.run.faultKind = some .outOfBounds ∧ t.out = s.out)

/-- R95: JMP as it stands in memory, its opcode 0x54 at PC and its register byte after it. -/
def Obligations.JmpInMemory : Prop :=
  ∀ s : State, s.run = .running → s.mem.read s.pc = .ok 0x54 →
    (∀ (b : Byte) (r : RegIndex), s.mem.read (s.pc + 1) = .ok b → b.toNat = r.val →
      ∃ t, step s = .next t ∧ t.pc = (s.reg r).toNat ∧ SameRegs s t ∧ t.fl = s.fl ∧
        SameMemory s t ∧ t.run = .running ∧ t.out = s.out) ∧
    (∀ b : Byte, s.mem.read (s.pc + 1) = .ok b → 8 ≤ b.toNat →
      ∃ t, step s = .next t ∧ t.run.faultKind = some .outOfBounds) ∧
    (s.pc = 255 → ∃ t, step s = .next t ∧ t.run.faultKind = some .outOfBounds)

/-! ## Rules about the whole machine -/

/-- A register changes only by an LDI that names it, to that LDI's immediate, or by a MUL that names it first, to the product;
both read from memory at PC (R12). That a fault leaves the rest unchanged is decision D8, log 16. -/
def Obligations.RegistersChangeOnlyByLdiAndMul : Prop :=
  ∀ (s t : State) (r : RegIndex), s.run = .running → step s = .next t → t.reg r ≠ s.reg r →
    (∃ b : Byte, s.mem.read s.pc = .ok 0x82 ∧ s.mem.read (s.pc + 1) = .ok b ∧ b.toNat = r.val ∧
      s.mem.read (s.pc + 2) = .ok (t.reg r)) ∨
    (∃ (x y : Byte) (b : RegIndex), s.mem.read s.pc = .ok 0xA2 ∧ s.mem.read (s.pc + 1) = .ok x ∧ x.toNat = r.val ∧
      s.mem.read (s.pc + 2) = .ok y ∧ y.toNat = b.val ∧
      (t.reg r).toNat = ((s.reg r).toNat * (s.reg b).toNat) % 256)

/-- R19: FL is written only by Compare, which only CMP invokes, and is read only by JEQ and JNE, which look at bit 0 alone: with
another FL (for JEQ and JNE, another with the same bit 0) an instruction does the same to everything but FL. Neither Add nor
Multiply writes FL. -/
def Obligations.FlagsWrittenByCmpAndReadByConditionalJumps : Prop :=
  (∀ (i : Instr) (s t : State), exec i s = .next t → t.fl ≠ s.fl → ∃ oa ob, i = .cmp oa ob) ∧
  (∀ (s t : State) (op : AluOp) (a b : RegIndex), s.alu op a b = .ok t → t.fl ≠ s.fl → op = .compare) ∧
  (∀ (i : Instr) (s t : State) (fl : Byte), exec i s = .next t →
    ((∃ o, i = .jeq o ∨ i = .jne o) → fl.getLsbD 0 = s.fl.getLsbD 0) →
    ∃ u, exec i { s with fl := fl } = .next u ∧ { u with fl := t.fl } = t)

/-- OUT grows only by a PRN at PC that completes, and by exactly its register's value; it is never shortened (R25, R91; the list
of emitted values is decision D12, log 17). That a fault leaves the rest unchanged is decision D8, log 16. -/
def Obligations.OutputGrowsOnlyByPrn : Prop :=
  ∀ s t : State, s.run = .running → step s = .next t →
    t.out = s.out ∨
    (s.mem.read s.pc = .ok 0x47 ∧ ∃ (b : Byte) (r : RegIndex),
      s.mem.read (s.pc + 1) = .ok b ∧ b.toNat = r.val ∧ t.out = s.out ++ [s.reg r])

/-- IR is not observable: two Running machines that differ only in IR take the same step, IR included once a byte is fetched
(R22; decision D17; so the reset value of log 2 is immaterial). That a fault leaves the rest unchanged is decision D8, log
16. -/
def Obligations.InstructionRegisterIsUnobservable : Prop :=
  ∀ (s t : State) (b : Byte), s.run = .running → step s = .next t →
    (s.pc < 256 → step { s with ir := b } = .next t) ∧
    (256 ≤ s.pc → step { s with ir := b } = .next { t with ir := b })

/-- No register is special: exchanging two registers in the instruction and in the state exchanges them in the result and
changes nothing else; R7 with any other register is one case (R11, derived there). That the whole operand byte is the index is
decision D21. -/
def Obligations.RegistersAreInterchangeable : Prop :=
  ∀ (p q : RegIndex) (i : Instr) (s : State),
    exec (i.swapRegs p q) (s.swapRegs p q) =
      match exec i s with
      | .next t => .next (t.swapRegs p q)
      | .fault f => .fault f
      | .refused r => .refused r

/-! ## The invariant -/

/-- The state after reset, and after the load of any image, meets the invariant (R130, R131, R20). FL's reset value is decision
D2, log 1; the canonical form of memory is the model's choice, log 13. -/
def Obligations.BootedMachineMeetsInvariant : Prop :=
  Inv State.reset ∧ ∀ (image : List Byte) (s : State), boot image = .ok s → Inv s

/-- Every step keeps the invariant: canonical memory, PC in 0..257 (R16), FL 0x00 or 0x01 (R21), only faults the core can raise
with the information of R117 (decision D7). Each bound is derived in its rule. The canonical form of memory is the model's
choice, log 13; the bound 257 rests on R99, decision D10, log 10; the full clear is decision D3, log 11; FL's numeric value is
decision D4, log 12; the information of a fault is decision D7, log 15; that a fault leaves the rest unchanged is decision D8,
log 16. -/
def Obligations.StepKeepsInvariant : Prop :=
  ∀ s t : State, Inv s → step s = .next t → Inv t

/-- Along every run: the invariant holds, memory is what it was, and the output only grows (R16, R21, R23, R25). The canonical
form of memory is the model's choice, log 13; the invariant's bounds are derived in R16 and R21 and rest on decisions D3, D4,
D7, D8 and D10, logs 11, 12, 15, 16 and 10; OUT as the list of emitted values is decision D12, log 17. -/
def Obligations.RunsKeepInvariantMemoryAndOutput : Prop :=
  ∀ s t : State, Inv s → Reaches s t → Inv t ∧ t.mem = s.mem ∧ ∃ emitted, t.out = s.out ++ emitted

/-! ## Running on -/

/-- A JMP to its own address runs for ever, safely: the machine stays Running at that PC, emits nothing and changes no register,
and always has a next state (R95, R86, R137; `95_test_vectors.md` S4). OUT as the list of emitted values is decision D12, log
17. -/
def Obligations.JumpToSelfRunsForever : Prop :=
  ∀ (s : State) (b : Byte) (r : RegIndex), s.run = .running →
    s.mem.read s.pc = .ok 0x54 → s.mem.read (s.pc + 1) = .ok b → b.toNat = r.val → (s.reg r).toNat = s.pc →
    SafeRun s ∧
    ∀ t, Reaches s t → t.run = .running ∧ t.pc = s.pc ∧ SameRegs s t ∧ t.fl = s.fl ∧ t.out = s.out ∧
      ∃ u, step t = .next u

/-- A machine whose PC stands in a cell no image byte was loaded into faults with IllegalInstruction 0x00 there: it does not slide
through the zeros (R133, derived there; R56). That IR holds the fetched 0x00 and nothing else but RUN changes is R118 (decision D8,
log 16), that the opcode is recorded is R117 (decision D7, log 15). An empty image is the case PC = 0. -/
def Obligations.UnloadedMemoryIsIllegal : Prop :=
  ∀ (image : List Byte) (s t : State), boot image = .ok s → t.mem = s.mem → t.run = .running →
    image.length ≤ t.pc → t.pc < 256 →
    step t = .next { t with ir := 0x00, run := .faulted (.illegalInstruction 0x00) }

/-! ## Placing an instruction, and text on the host's side -/

/-- An opcode-table word that decodes to `i`, placed at a PC that leaves it room, is what the next step fetches and executes
(`withFetchWord` is the model's own, log 8; R81, R131). The canonical form of memory is the model's choice, log 13. -/
def Obligations.PlacedWordIsExecutedNext : Prop :=
  ∀ (s : State) (nbits w : Nat) (i : Instr), s.mem.wf = true → s.pc ≤ 253 → decodeTableWord nbits w = some i →
    step (s.withFetchWord nbits w) = exec i { s.withFetchWord nbits w with ir := i.opcode }

/-- The Mnemonic Table sends every instruction's name to its opcode byte, and no name to two bytes (R26, R55). -/
def Obligations.MnemonicTableMatchesOpcodes : Prop :=
  (∀ i : Instr, mnemonicTable.lookup i.mnemonic = some i.opcode) ∧ (mnemonicTable.map Prod.fst).Nodup

/-- The text of an emitted value: decimal digits whose value is the byte, no leading zero, then one line feed (R102; the form of the
text is decision D13, log 18). -/
def Obligations.OutputTextIsDecimalLine : Prop :=
  ∀ b : Byte, ∃ digits : List Nat,
    digits ≠ [] ∧ (∀ d ∈ digits, d < 10) ∧ (digits.head? = some 0 → digits = [0]) ∧
    digits.foldl (fun value d => 10 * value + d) 0 = b.toNat ∧
    renderByte b = digits.map (fun d => Char.ofNat ('0'.toNat + d)) ++ ['\n']
end

