-- ==== Sys2Proof/Laws/Decode.lean ====
section
/-! SUPPORT. What the decoder's lookup can answer, said once. -/

namespace Sys2Proof

/-- All that an opcode byte can decode to: one of the eight, each with its own opcode (`30_encoding.md` R55). -/
theorem decodeOpcode_some {op : Byte} {rest : List Byte} {i : Instr} (h : decodeOpcode op rest = some i) :
    (op = 0x01 ∧ i = .hlt) ∨ (op = 0x82 ∧ i = .ldi rest[0]? rest[1]?) ∨ (op = 0x47 ∧ i = .prn rest[0]?) ∨
    (op = 0xA2 ∧ i = .mul rest[0]? rest[1]?) ∨ (op = 0xA7 ∧ i = .cmp rest[0]? rest[1]?) ∨
    (op = 0x54 ∧ i = .jmp rest[0]?) ∨ (op = 0x55 ∧ i = .jeq rest[0]?) ∨ (op = 0x56 ∧ i = .jne rest[0]?) := by
  unfold decodeOpcode at h
  repeat (first | (split at h; · cases h; simp_all [opcodeHlt, opcodeLdi, opcodePrn, opcodeMul, opcodeCmp, opcodeJmp, opcodeJeq, opcodeJne]) | cases h)

/-- The decoded instruction's opcode is the byte it was decoded from. -/
theorem decodeOpcode_opcode {op : Byte} {rest : List Byte} {i : Instr} (h : decodeOpcode op rest = some i) :
    i.opcode = op := by
  rcases decodeOpcode_some h with h | h | h | h | h | h | h | h <;> obtain ⟨rfl, rfl⟩ := h <;> rfl

/-- The decoded instruction's operands are the bytes after the opcode, in order, a missing byte as `none`. -/
theorem decodeOpcode_operand {op : Byte} {rest : List Byte} {i : Instr} {k : Nat} {o : Operand}
    (h : decodeOpcode op rest = some i) (hk : i.operands[k]? = some o) : k < 2 ∧ o = rest[k]? := by
  rcases decodeOpcode_some h with h | h | h | h | h | h | h | h <;> obtain ⟨-, rfl⟩ := h <;>
    rcases k with _ | _ | k <;> simp_all [Instr.operands]

/-- The lookup fails on exactly the opcode bytes outside the eight, whatever follows (`30_encoding.md` R56). -/
theorem decodeOpcode_none {op : Byte} {rest : List Byte} :
    decodeOpcode op rest = none ↔ op ∉ [(0x01 : Byte), 0x82, 0x47, 0xA2, 0xA7, 0x54, 0x55, 0x56] := by
  unfold decodeOpcode
  repeat' split
  all_goals simp_all [opcodeHlt, opcodeLdi, opcodePrn, opcodeMul, opcodeCmp, opcodeJmp, opcodeJeq, opcodeJne]

theorem decode_cons_ok {op : Byte} {rest : List Byte} {i : Instr} :
    decode (op :: rest) = .ok i ↔ decodeOpcode op rest = some i := by
  simp only [decode]
  cases decodeOpcode op rest <;> simp

theorem decode_cons_error {op : Byte} {rest : List Byte} {e : DecodeError} :
    decode (op :: rest) = .error e ↔ decodeOpcode op rest = none ∧ e = .illegalOpcode op := by
  simp only [decode]
  cases decodeOpcode op rest <;> simp [eq_comm]

/-- A well-formed register operand is a byte below 8. -/
theorem isReg_iff {o : Operand} : Operand.isReg o = true ↔ ∃ b : Byte, o = some b ∧ b.toNat < 8 := by
  cases o <;> simp [Operand.isReg, numRegs]

/-- A well-formed immediate operand is a byte. -/
theorem isImm_iff {o : Operand} : Operand.isImm o = true ↔ ∃ b : Byte, o = some b := by
  cases o <;> simp [Operand.isImm]

end Sys2Proof
end

