-- ==== Sys2Proof/Laws/Memory.lean ====
section
/-! SUPPORT. Memory: read after write, and that every operation keeps the canonical form (`20_memory.md` R31, R32). -/

namespace Sys2Proof.Machine

/-- A cell below the listed ones reads as an unlisted one. -/
theorem get_below {m : Memory} {lowest a : Nat} (h : Memory.wfFrom lowest m = true) (ha : a < lowest) :
    m.get a = Memory.unlisted := by
  induction m generalizing lowest with
  | nil => rfl
  | cons c rest ih =>
    obtain ⟨b, v⟩ := c
    simp only [Memory.wfFrom, Bool.and_eq_true, decide_eq_true_eq] at h
    have hne : b ≠ a := by omega
    simp only [Memory.get, hne, if_false]
    exact ih h.2 (by omega)

/-- A lower bound may be lowered. -/
theorem wfFrom_mono {m : Memory} {lo lo' : Nat} (h : Memory.wfFrom lo m = true) (hlo : lo' ≤ lo) :
    Memory.wfFrom lo' m = true := by
  cases m with
  | nil => rfl
  | cons c rest =>
    obtain ⟨b, v⟩ := c
    simp only [Memory.wfFrom, Bool.and_eq_true, decide_eq_true_eq] at h ⊢
    exact ⟨⟨⟨by omega, h.1.1.2⟩, h.1.2⟩, h.2⟩

theorem cons_wfFrom {rest : Memory} {lo a : Nat} {v : Byte} (h : Memory.wfFrom (a + 1) rest = true) (hlo : lo ≤ a)
    (ha : a < memSize) : Memory.wfFrom lo (Memory.cons a v rest) = true := by
  unfold Memory.cons
  split
  · exact wfFrom_mono h (by omega)
  · simp [Memory.wfFrom, *]

/-- Changing a cell keeps the canonical form. -/
theorem put_wfFrom {m : Memory} {lo a : Nat} {v : Byte} (h : Memory.wfFrom lo m = true) (hlo : lo ≤ a) (ha : a < memSize) :
    Memory.wfFrom lo (m.put a v) = true := by
  induction m generalizing lo with
  | nil => exact cons_wfFrom rfl hlo ha
  | cons c rest ih =>
    obtain ⟨b, w⟩ := c
    have h' := h
    simp only [Memory.wfFrom, Bool.and_eq_true, decide_eq_true_eq] at h'
    simp only [Memory.put]
    split
    · next hab =>
      refine cons_wfFrom ?_ hlo ha
      simp only [Memory.wfFrom, Bool.and_eq_true, decide_eq_true_eq]
      exact ⟨⟨⟨by omega, h'.1.1.2⟩, h'.1.2⟩, h'.2⟩
    · split
      · next hab =>
        subst hab
        exact cons_wfFrom h'.2 hlo ha
      · simp only [Memory.wfFrom, Bool.and_eq_true, decide_eq_true_eq]
        exact ⟨h'.1, ih h'.2 (by omega)⟩

theorem get_cons {rest : Memory} {a c : Nat} {v : Byte} (h : Memory.wfFrom (a + 1) rest = true) :
    (Memory.cons a v rest).get c = if a = c then v else rest.get c := by
  unfold Memory.cons
  split
  · next hv =>
    split
    · next hac =>
      subst hac
      rw [get_below h (by omega), hv]
    · rfl
  · rfl

/-- A changed cell holds the new byte, every other cell what it held. -/
theorem get_put_from {m : Memory} {lo a c : Nat} {v : Byte} (h : Memory.wfFrom lo m = true) :
    (m.put a v).get c = if a = c then v else m.get c := by
  induction m generalizing lo with
  | nil => exact get_cons rfl
  | cons d rest ih =>
    obtain ⟨b, w⟩ := d
    simp only [Memory.wfFrom, Bool.and_eq_true, decide_eq_true_eq] at h
    simp only [Memory.put]
    split
    · next hab =>
      apply get_cons
      simp only [Memory.wfFrom, Bool.and_eq_true, decide_eq_true_eq]
      exact ⟨⟨⟨by omega, h.1.1.2⟩, h.1.2⟩, h.2⟩
    · split
      · next hab =>
        subst hab
        rw [get_cons h.2]
        by_cases hac : a = c <;> simp [Memory.get, hac]
      · next hne =>
        have := ih h.2
        by_cases hbc : b = c
        · have hac : a ≠ c := by omega
          simp [Memory.get, hbc, hac]
        · simp [Memory.get, hbc, this]

theorem get_put {m : Memory} (h : m.wf = true) (a c : Nat) (v : Byte) :
    (m.put a v).get c = if a = c then v else m.get c :=
  get_put_from h

theorem put_wf {m : Memory} (h : m.wf = true) {a : Nat} (ha : a < memSize) (v : Byte) : (m.put a v).wf = true :=
  put_wfFrom h (by omega) ha

/-! ## The accessors: all a read and a write can answer -/

theorem read_ok {m : Memory} {a : Nat} {b : Byte} : m.read a = .ok b ↔ a < 256 ∧ m.get a = b := by
  unfold Memory.read
  split <;> simp_all [memSize]

theorem read_error {m : Memory} {a : Nat} {f : Fault} : m.read a = .error f ↔ 256 ≤ a ∧ f = .outOfBoundsMem a := by
  unfold Memory.read
  split
  · next h => simp only [memSize] at h; simp; omega
  · next h => simp only [memSize] at h; simp only [Except.error.injEq]; constructor
              · intro hf; exact ⟨by omega, hf.symm⟩
              · intro hf; exact hf.2.symm

theorem write_ok {m m' : Memory} {a : Nat} {v : Byte} : m.write a v = .ok m' ↔ a < 256 ∧ m' = m.put a v := by
  unfold Memory.write
  split <;> simp_all [memSize, eq_comm]

theorem write_error {m : Memory} {a : Nat} {v : Byte} {f : Fault} :
    m.write a v = .error f ↔ 256 ≤ a ∧ f = .outOfBoundsMem a := by
  unfold Memory.write
  split
  · next h => simp only [memSize] at h; simp; omega
  · next h => simp only [memSize] at h; simp only [Except.error.injEq]; constructor
              · intro hf; exact ⟨by omega, hf.symm⟩
              · intro hf; exact hf.2.symm

/-- A write that succeeds keeps the canonical form. -/
theorem write_wf {m m' : Memory} {a : Nat} {v : Byte} (h : m.wf = true) (hw : m.write a v = .ok m') : m'.wf = true := by
  obtain ⟨ha, rfl⟩ := write_ok.mp hw
  exact put_wf h ha v

/-- A load that succeeds keeps the canonical form. -/
theorem load_wf {image : List Byte} {m m' : Memory} {a : Nat} (h : m.wf = true) (hl : m.load a image = .ok m') :
    m'.wf = true := by
  induction image generalizing m a with
  | nil => simp only [Memory.load, Except.ok.injEq] at hl; exact hl ▸ h
  | cons b rest ih =>
    simp only [Memory.load] at hl
    split at hl
    · next hw => exact ih (write_wf h hw) hl
    · cases hl

/-- Storing bytes as far as they lie in memory keeps the canonical form. -/
theorem storeBytes_wf {bytes : List Byte} {m : Memory} {a : Nat} (h : m.wf = true) : (m.storeBytes a bytes).wf = true := by
  induction bytes generalizing m a with
  | nil => exact h
  | cons b rest ih =>
    simp only [Memory.storeBytes]
    split
    · next hw => exact ih (write_wf h hw)
    · exact h

/-! ## The bytes from an address on -/

theorem bytesFrom_getElem? (m : Memory) (a n k : Nat) :
    (m.bytesFrom a n)[k]? = if k < n ∧ a + k < 256 then some (m.get (a + k)) else none := by
  induction n generalizing a k with
  | zero => simp [Memory.bytesFrom]
  | succ n ih =>
    simp only [Memory.bytesFrom]
    split
    · next b hb =>
      obtain ⟨ha, rfl⟩ := read_ok.mp hb
      cases k with
      | zero => simp [ha]
      | succ k =>
        rw [List.getElem?_cons_succ, ih]
        have : a + 1 + k = a + (k + 1) := by omega
        simp [this]
    · next f hf =>
      have := (read_error.mp hf).1
      have hno : ¬ (k < n + 1 ∧ a + k < 256) := by omega
      rw [if_neg hno, List.getElem?_nil]

/-- The bytes at the program counter begin with the opcode. -/
theorem bytesFrom_of_read {m : Memory} {a n : Nat} {b : Byte} (h : m.read a = .ok b) :
    m.bytesFrom a (n + 1) = b :: m.bytesFrom (a + 1) n := by
  simp [Memory.bytesFrom, h]

end Sys2Proof.Machine
end

