-- ==== Sys2Proof/Laws/State.lean ====
section
/-! SUPPORT. One lemma per field per update of the state, so that no proof unfolds a record update. -/

namespace Sys2Proof.Machine

variable (s : State) (r q : RegIndex) (v : Byte) (n : Nat) (f : Fault)

@[simp] theorem setReg_pc : (s.setReg r v).pc = s.pc := rfl
@[simp] theorem setReg_fl : (s.setReg r v).fl = s.fl := rfl
@[simp] theorem setReg_ir : (s.setReg r v).ir = s.ir := rfl
@[simp] theorem setReg_mem : (s.setReg r v).mem = s.mem := rfl
@[simp] theorem setReg_run : (s.setReg r v).run = s.run := rfl
@[simp] theorem setReg_out : (s.setReg r v).out = s.out := rfl

@[simp] theorem setFl_regs : (s.setFl v).regs = s.regs := rfl
@[simp] theorem setFl_pc : (s.setFl v).pc = s.pc := rfl
@[simp] theorem setFl_fl : (s.setFl v).fl = v := rfl
@[simp] theorem setFl_ir : (s.setFl v).ir = s.ir := rfl
@[simp] theorem setFl_mem : (s.setFl v).mem = s.mem := rfl
@[simp] theorem setFl_run : (s.setFl v).run = s.run := rfl
@[simp] theorem setFl_out : (s.setFl v).out = s.out := rfl

@[simp] theorem setIr_regs : (s.setIr v).regs = s.regs := rfl
@[simp] theorem setIr_pc : (s.setIr v).pc = s.pc := rfl
@[simp] theorem setIr_fl : (s.setIr v).fl = s.fl := rfl
@[simp] theorem setIr_ir : (s.setIr v).ir = v := rfl
@[simp] theorem setIr_mem : (s.setIr v).mem = s.mem := rfl
@[simp] theorem setIr_run : (s.setIr v).run = s.run := rfl
@[simp] theorem setIr_out : (s.setIr v).out = s.out := rfl

@[simp] theorem advance_regs : (s.advance n).regs = s.regs := rfl
@[simp] theorem advance_pc : (s.advance n).pc = s.pc + n := rfl
@[simp] theorem advance_fl : (s.advance n).fl = s.fl := rfl
@[simp] theorem advance_ir : (s.advance n).ir = s.ir := rfl
@[simp] theorem advance_mem : (s.advance n).mem = s.mem := rfl
@[simp] theorem advance_run : (s.advance n).run = s.run := rfl
@[simp] theorem advance_out : (s.advance n).out = s.out := rfl

@[simp] theorem jumpTo_regs : (s.jumpTo v).regs = s.regs := rfl
@[simp] theorem jumpTo_pc : (s.jumpTo v).pc = v.toNat := rfl
@[simp] theorem jumpTo_fl : (s.jumpTo v).fl = s.fl := rfl
@[simp] theorem jumpTo_ir : (s.jumpTo v).ir = s.ir := rfl
@[simp] theorem jumpTo_mem : (s.jumpTo v).mem = s.mem := rfl
@[simp] theorem jumpTo_run : (s.jumpTo v).run = s.run := rfl
@[simp] theorem jumpTo_out : (s.jumpTo v).out = s.out := rfl

@[simp] theorem emit_regs : (s.emit v).regs = s.regs := rfl
@[simp] theorem emit_pc : (s.emit v).pc = s.pc := rfl
@[simp] theorem emit_fl : (s.emit v).fl = s.fl := rfl
@[simp] theorem emit_ir : (s.emit v).ir = s.ir := rfl
@[simp] theorem emit_mem : (s.emit v).mem = s.mem := rfl
@[simp] theorem emit_run : (s.emit v).run = s.run := rfl
@[simp] theorem emit_out : (s.emit v).out = s.out ++ [v] := rfl

@[simp] theorem halt_regs : s.halt.regs = s.regs := rfl
@[simp] theorem halt_pc : s.halt.pc = s.pc := rfl
@[simp] theorem halt_fl : s.halt.fl = s.fl := rfl
@[simp] theorem halt_ir : s.halt.ir = s.ir := rfl
@[simp] theorem halt_mem : s.halt.mem = s.mem := rfl
@[simp] theorem halt_run : s.halt.run = .halted := rfl
@[simp] theorem halt_out : s.halt.out = s.out := rfl

@[simp] theorem raise_regs : (s.raise f).regs = s.regs := rfl
@[simp] theorem raise_pc : (s.raise f).pc = s.pc := rfl
@[simp] theorem raise_fl : (s.raise f).fl = s.fl := rfl
@[simp] theorem raise_ir : (s.raise f).ir = s.ir := rfl
@[simp] theorem raise_mem : (s.raise f).mem = s.mem := rfl
@[simp] theorem raise_run : (s.raise f).run = .faulted f := rfl
@[simp] theorem raise_out : (s.raise f).out = s.out := rfl

/-! ## Reading registers and the equal flag after an update -/

theorem setReg_reg : (s.setReg r v).reg q = if r = q then v else s.reg q := by
  simp [State.reg, State.setReg, Vector.get_eq_getElem, Vector.getElem_set, Fin.ext_iff]

@[simp] theorem setReg_reg_same : (s.setReg r v).reg r = v := by simp [setReg_reg]

theorem setReg_reg_other (h : q ≠ r) : (s.setReg r v).reg q = s.reg q := by
  simp [setReg_reg, h.symm]

@[simp] theorem setFl_reg : (s.setFl v).reg q = s.reg q := rfl
@[simp] theorem setIr_reg : (s.setIr v).reg q = s.reg q := rfl
@[simp] theorem advance_reg : (s.advance n).reg q = s.reg q := rfl
@[simp] theorem jumpTo_reg : (s.jumpTo v).reg q = s.reg q := rfl
@[simp] theorem emit_reg : (s.emit v).reg q = s.reg q := rfl
@[simp] theorem halt_reg : s.halt.reg q = s.reg q := rfl
@[simp] theorem raise_reg : (s.raise f).reg q = s.reg q := rfl

@[simp] theorem setIr_equalFlag : (s.setIr v).equalFlag = s.equalFlag := rfl

/-- Two states are equal when all registers and all other fields agree. -/
theorem State.ext_of_fields {s t : State} (regs : ∀ r, s.reg r = t.reg r) (pc : s.pc = t.pc) (fl : s.fl = t.fl)
    (ir : s.ir = t.ir) (mem : s.mem = t.mem) (run : s.run = t.run) (out : s.out = t.out) : s = t := by
  have hregs : s.regs = t.regs := by
    apply Vector.ext
    intro i hi
    simpa [State.reg, Vector.get_eq_getElem] using regs ⟨i, hi⟩
  cases s
  cases t
  simp_all

end Sys2Proof.Machine
end

