-- ==== Sys2Proof/Laws/Exec.lean ====
section
/-! SUPPORT. Everything an operand form, an instruction and a cycle can do, each said once. -/

namespace Sys2Proof.Machine

/-! ## Operand forms -/

theorem regIndex_lt (r : RegIndex) : r.val < 8 := r.isLt

theorem regIdx_ok {b : Byte} {r : RegIndex} : regIdx b = .ok r ↔ b.toNat = r.val := by
  unfold regIdx
  split
  · simp [Fin.ext_iff]
  · next h => have := regIndex_lt r; simp only [numRegs] at h; constructor
              · intro h'; cases h'
              · intro h'; omega

theorem regIdx_error {b : Byte} {f : Fault} : regIdx b = .error f ↔ 8 ≤ b.toNat ∧ f = .outOfBoundsReg b := by
  unfold regIdx
  split
  · next h => simp only [numRegs] at h; constructor
              · intro h'; cases h'
              · intro h'; omega
  · next h => simp only [numRegs] at h; simp only [Except.error.injEq]; constructor
              · intro h'; exact ⟨by omega, h'.symm⟩
              · intro h'; exact h'.2.symm

/-- The faults that an instruction at `pc` with these operand bytes can raise while it reads and checks them: a missing byte
(`60_exceptions.md` R112), a register byte above 7 (R113). -/
def OperandFault (pc : Nat) (ops : List Operand) (f : Fault) : Prop :=
  (∃ k, ops[k]? = some none ∧ f = .outOfBoundsMem (pc + 1 + k)) ∨
  (∃ b : Byte, some b ∈ ops ∧ 8 ≤ b.toNat ∧ f = .outOfBoundsReg b)

theorem operandsR_ok {o : Operand} {pc : Nat} {r : RegIndex} :
    operandsR o pc = .ok r ↔ ∃ b : Byte, o = some b ∧ b.toNat = r.val := by
  cases o with
  | none => simp [operandsR, operandByte, bind, Except.bind]
  | some b => simp [operandsR, operandByte, bind, Except.bind, regIdx_ok]

theorem operandsR_error {o : Operand} {pc : Nat} {f : Fault} (h : operandsR o pc = .error f) : OperandFault pc [o] f := by
  cases o with
  | none =>
    simp only [operandsR, operandByte, bind, Except.bind, Except.error.injEq] at h
    exact .inl ⟨0, rfl, h.symm⟩
  | some b =>
    simp only [operandsR, operandByte, bind, Except.bind] at h
    exact .inr ⟨b, by simp, regIdx_error.mp h⟩

theorem operandsRI_ok {o i : Operand} {pc : Nat} {r : RegIndex} {v : Byte} :
    operandsRI o i pc = .ok (r, v) ↔ ∃ b : Byte, o = some b ∧ b.toNat = r.val ∧ i = some v := by
  cases o with
  | none => simp [operandsRI, operandByte, bind, Except.bind]
  | some b =>
    cases i with
    | none => simp [operandsRI, operandByte, bind, Except.bind]
    | some w =>
      cases hb : regIdx b with
      | ok r' =>
        have := regIdx_ok.mp hb
        simp [operandsRI, operandByte, bind, Except.bind, pure, Except.pure, hb, Fin.ext_iff, this]
      | error f =>
        have := (regIdx_error.mp hb).1
        have hr := regIndex_lt r
        simp [operandsRI, operandByte, bind, Except.bind, hb]
        omega

theorem operandsRI_error {o i : Operand} {pc : Nat} {f : Fault} (h : operandsRI o i pc = .error f) :
    OperandFault pc [o, i] f := by
  cases o with
  | none =>
    simp only [operandsRI, operandByte, bind, Except.bind, Except.error.injEq] at h
    exact .inl ⟨0, rfl, h.symm⟩
  | some b =>
    cases i with
    | none =>
      simp only [operandsRI, operandByte, bind, Except.bind, Except.error.injEq] at h
      exact .inl ⟨1, rfl, h.symm⟩
    | some w =>
      cases hb : regIdx b with
      | ok r' => simp [operandsRI, operandByte, bind, Except.bind, pure, Except.pure, hb] at h
      | error g =>
        simp only [operandsRI, operandByte, bind, Except.bind, hb, Except.error.injEq] at h
        subst h
        exact .inr ⟨b, by simp, regIdx_error.mp hb⟩

theorem operandsRR_ok {oa ob : Operand} {pc : Nat} {a b : RegIndex} :
    operandsRR oa ob pc = .ok (a, b) ↔
      ∃ x y : Byte, oa = some x ∧ x.toNat = a.val ∧ ob = some y ∧ y.toNat = b.val := by
  cases oa with
  | none => simp [operandsRR, operandByte, bind, Except.bind]
  | some x =>
    cases ob with
    | none => simp [operandsRR, operandByte, bind, Except.bind]
    | some y =>
      cases hx : regIdx x with
      | error f =>
        have := (regIdx_error.mp hx).1
        have := regIndex_lt a
        simp [operandsRR, operandByte, bind, Except.bind, hx]
        omega
      | ok a' =>
        have hx' := regIdx_ok.mp hx
        cases hy : regIdx y with
        | error f =>
          have := (regIdx_error.mp hy).1
          have := regIndex_lt b
          simp [operandsRR, operandByte, bind, Except.bind, hx, hy]
          omega
        | ok b' =>
          have hy' := regIdx_ok.mp hy
          simp [operandsRR, operandByte, bind, Except.bind, pure, Except.pure, hx, hy, Fin.ext_iff, hx', hy']

theorem operandsRR_error {oa ob : Operand} {pc : Nat} {f : Fault} (h : operandsRR oa ob pc = .error f) :
    OperandFault pc [oa, ob] f := by
  cases oa with
  | none =>
    simp only [operandsRR, operandByte, bind, Except.bind, Except.error.injEq] at h
    exact .inl ⟨0, rfl, h.symm⟩
  | some x =>
    cases ob with
    | none =>
      simp only [operandsRR, operandByte, bind, Except.bind, Except.error.injEq] at h
      exact .inl ⟨1, rfl, h.symm⟩
    | some y =>
      cases hx : regIdx x with
      | error g =>
        simp only [operandsRR, operandByte, bind, Except.bind, hx, Except.error.injEq] at h
        subst h
        exact .inr ⟨x, by simp, regIdx_error.mp hx⟩
      | ok a =>
        cases hy : regIdx y with
        | error g =>
          simp only [operandsRR, operandByte, bind, Except.bind, hx, hy, Except.error.injEq] at h
          subst h
          exact .inr ⟨y, by simp, regIdx_error.mp hy⟩
        | ok b => simp [operandsRR, operandByte, bind, Except.bind, pure, Except.pure, hx, hy] at h

/-! ## Instructions -/

/-- The effect of an instruction that completes: what each one does when all its checks pass. -/
inductive Effect (s : State) : Instr → State → Prop where
  | hlt : Effect s .hlt s.halt
  | ldi {b v : Byte} {r : RegIndex} (hr : b.toNat = r.val) :
      Effect s (.ldi (some b) (some v)) ((s.setReg r v).advance 3)
  | prn {b : Byte} {r : RegIndex} (hr : b.toNat = r.val) :
      Effect s (.prn (some b)) ((s.emit (s.reg r)).advance 2)
  | mul {x y : Byte} {a b : RegIndex} (ha : x.toNat = a.val) (hb : y.toNat = b.val) :
      Effect s (.mul (some x) (some y)) ((s.setReg a (aluMultiply (s.reg a) (s.reg b))).advance 3)
  | cmp {x y : Byte} {a b : RegIndex} (ha : x.toNat = a.val) (hb : y.toNat = b.val) :
      Effect s (.cmp (some x) (some y)) ((s.setFl (compareFlags s.fl (s.reg a) (s.reg b))).advance 3)
  | jmp {b : Byte} {r : RegIndex} (hr : b.toNat = r.val) :
      Effect s (.jmp (some b)) (s.jumpTo (s.reg r))
  | jeqTaken {b : Byte} {r : RegIndex} (hr : b.toNat = r.val) (he : s.equalFlag = true) :
      Effect s (.jeq (some b)) (s.jumpTo (s.reg r))
  | jeqNotTaken {o : Operand} (he : s.equalFlag = false) : Effect s (.jeq o) (s.advance 2)
  | jneTaken {b : Byte} {r : RegIndex} (hr : b.toNat = r.val) (he : s.equalFlag = false) :
      Effect s (.jne (some b)) (s.jumpTo (s.reg r))
  | jneNotTaken {o : Operand} (he : s.equalFlag = true) : Effect s (.jne o) (s.advance 2)

/-- An effect is what the instruction does. -/
theorem exec_of_effect {s t : State} {i : Instr} (h : Effect s i t) : exec i s = .next t := by
  cases h with
  | hlt => rfl
  | @ldi b v r hr =>
    simp [exec, execLdi, operandsRI_ok.mpr ⟨b, rfl, hr, rfl⟩, bind, Except.bind, pure, Except.pure, State.conclude]
  | @prn b r hr =>
    simp [exec, execPrn, operandsR_ok.mpr ⟨b, rfl, hr⟩, bind, Except.bind, pure, Except.pure, State.conclude]
  | @mul x y a b ha hb =>
    simp [exec, execMul, aluInstr, operandsRR_ok.mpr ⟨x, y, rfl, ha, rfl, hb⟩, State.alu, bind, Except.bind, pure,
      Except.pure, State.conclude]
  | @cmp x y a b ha hb =>
    simp [exec, execCmp, aluInstr, operandsRR_ok.mpr ⟨x, y, rfl, ha, rfl, hb⟩, State.alu, bind, Except.bind, pure,
      Except.pure, State.conclude]
  | @jmp b r hr =>
    simp [exec, execJmp, takeJump, operandsR_ok.mpr ⟨b, rfl, hr⟩, bind, Except.bind, pure, Except.pure, State.conclude]
  | @jeqTaken b r hr he =>
    simp [exec, execJeq, jumpIf, he, takeJump, operandsR_ok.mpr ⟨b, rfl, hr⟩, bind, Except.bind, pure, Except.pure,
      State.conclude]
  | jeqNotTaken he => simp [exec, execJeq, jumpIf, he, State.conclude]
  | @jneTaken b r hr he =>
    simp [exec, execJne, jumpIf, he, takeJump, operandsR_ok.mpr ⟨b, rfl, hr⟩, bind, Except.bind, pure, Except.pure,
      State.conclude]
  | jneNotTaken he => simp [exec, execJne, jumpIf, he, State.conclude]

theorem takeJump_cases (o : Operand) (s : State) :
    (∃ b r, o = some b ∧ b.toNat = r.val ∧ takeJump o s = .ok (s.jumpTo (s.reg r))) ∨
    (∃ f, OperandFault s.pc [o] f ∧ takeJump o s = .error f) := by
  unfold takeJump
  cases h : operandsR o s.pc with
  | ok r =>
    obtain ⟨b, ho, hb⟩ := operandsR_ok.mp h
    exact .inl ⟨b, r, ho, hb, rfl⟩
  | error f => exact .inr ⟨f, operandsR_error h, rfl⟩

theorem aluInstr_error {op : AluOp} {oa ob : Operand} {s : State} {f : Fault} (h : operandsRR oa ob s.pc = .error f) :
    aluInstr op oa ob s = .error f := by
  simp [aluInstr, h, bind, Except.bind]

/-- All an instruction can do: its effect, or a fault of one of its operand bytes, taken in the state it began in. -/
theorem exec_cases (i : Instr) (s : State) :
    (∃ t, Effect s i t ∧ exec i s = .next t) ∨
    (∃ f, OperandFault s.pc i.operands f ∧ exec i s = .next (s.raise f)) := by
  have done : ∀ {i t}, Effect s i t → ∃ t, Effect s i t ∧ exec i s = .next t := fun h => ⟨_, h, exec_of_effect h⟩
  cases i with
  | hlt => exact .inl (done .hlt)
  | ldi o v =>
    cases h : operandsRI o v s.pc with
    | ok rv =>
      obtain ⟨b, rfl, hb, rfl⟩ := operandsRI_ok.mp h
      exact .inl (done (.ldi hb))
    | error f => exact .inr ⟨f, operandsRI_error h, by simp [exec, execLdi, h, bind, Except.bind, State.conclude]⟩
  | prn o =>
    cases h : operandsR o s.pc with
    | ok r =>
      obtain ⟨b, rfl, hb⟩ := operandsR_ok.mp h
      exact .inl (done (.prn hb))
    | error f => exact .inr ⟨f, operandsR_error h, by simp [exec, execPrn, h, bind, Except.bind, State.conclude]⟩
  | mul oa ob =>
    cases h : operandsRR oa ob s.pc with
    | ok ab =>
      obtain ⟨x, y, rfl, hx, rfl, hy⟩ := operandsRR_ok.mp h
      exact .inl (done (.mul hx hy))
    | error f => exact .inr ⟨f, operandsRR_error h, by simp [exec, execMul, aluInstr_error h, State.conclude]⟩
  | cmp oa ob =>
    cases h : operandsRR oa ob s.pc with
    | ok ab =>
      obtain ⟨x, y, rfl, hx, rfl, hy⟩ := operandsRR_ok.mp h
      exact .inl (done (.cmp hx hy))
    | error f => exact .inr ⟨f, operandsRR_error h, by simp [exec, execCmp, aluInstr_error h, State.conclude]⟩
  | jmp o =>
    obtain ⟨b, r, rfl, hb, -⟩ | ⟨f, hf, h⟩ := takeJump_cases o s
    · exact .inl (done (.jmp hb))
    · exact .inr ⟨f, hf, by simp [exec, execJmp, h, State.conclude]⟩
  | jeq o =>
    cases he : s.equalFlag with
    | false => exact .inl (done (.jeqNotTaken he))
    | true =>
      obtain ⟨b, r, rfl, hb, -⟩ | ⟨f, hf, h⟩ := takeJump_cases o s
      · exact .inl (done (.jeqTaken hb he))
      · exact .inr ⟨f, hf, by simp [exec, execJeq, jumpIf, he, h, State.conclude]⟩
  | jne o =>
    cases he : s.equalFlag with
    | true => exact .inl (done (.jneNotTaken he))
    | false =>
      obtain ⟨b, r, rfl, hb, -⟩ | ⟨f, hf, h⟩ := takeJump_cases o s
      · exact .inl (done (.jneTaken hb he))
      · exact .inr ⟨f, hf, by simp [exec, execJne, jumpIf, he, h, State.conclude]⟩

/-! ## Cycles and steps -/

/-- All a step of a Running machine can do: a fetch outside memory, an illegal opcode, or the decoded instruction's execute phase
with IR fetched. -/
theorem step_cases {s : State} (h : s.run = .running) :
    (256 ≤ s.pc ∧ step s = .next (s.raise (.outOfBoundsMem s.pc))) ∨
    (∃ op, s.mem.read s.pc = .ok op ∧ decodeOpcode op s.operandBytes = none ∧
      step s = .next ((s.setIr op).raise (.illegalInstruction op))) ∨
    (∃ op i, s.mem.read s.pc = .ok op ∧ decodeOpcode op s.operandBytes = some i ∧ step s = exec i (s.setIr op)) := by
  simp only [step, h, State.cycle]
  cases hr : s.mem.read s.pc with
  | error f =>
    obtain ⟨hpc, rfl⟩ := read_error.mp hr
    exact .inl ⟨hpc, rfl⟩
  | ok op =>
    cases hd : decodeOpcode op s.operandBytes with
    | none => exact .inr (.inl ⟨op, rfl, hd, by simp only [hd]⟩)
    | some i => exact .inr (.inr ⟨op, i, rfl, hd, by simp only [hd]⟩)

@[simp] theorem setIr_operandBytes (s : State) (v : Byte) : (s.setIr v).operandBytes = s.operandBytes := rfl

/-- The k-th byte after the opcode, if it lies in memory. -/
theorem operandBytes_getElem? (s : State) (k : Nat) :
    s.operandBytes[k]? = if k < 2 ∧ s.pc + 1 + k < 256 then some (s.mem.get (s.pc + 1 + k)) else none :=
  bytesFrom_getElem? s.mem (s.pc + 1) 2 k

/-- An operand byte of the decoded instruction is the byte of memory at its address (`30_encoding.md` R51). -/
theorem operand_read {s : State} {op b : Byte} {i : Instr} {k : Nat} (h : decodeOpcode op s.operandBytes = some i)
    (hk : i.operands[k]? = some (some b)) : s.mem.read (s.pc + 1 + k) = .ok b := by
  obtain ⟨-, hb⟩ := decodeOpcode_operand h hk
  rw [operandBytes_getElem?] at hb
  split at hb
  · next hlt => exact read_ok.mpr ⟨hlt.2, by simpa using hb.symm⟩
  · cases hb

/-- An operand is missing only where its address lies outside memory. -/
theorem operand_missing {s : State} {op : Byte} {i : Instr} {k : Nat} (h : decodeOpcode op s.operandBytes = some i)
    (hk : i.operands[k]? = some none) : k < 2 ∧ 256 ≤ s.pc + 1 + k := by
  obtain ⟨hlt, hb⟩ := decodeOpcode_operand h hk
  rw [operandBytes_getElem?] at hb
  split at hb
  · cases hb
  · exact ⟨hlt, by omega⟩

/-- How a cycle can have come to its next state: a fetch outside memory, an illegal opcode, an operand fault of the decoded
instruction, or that instruction's effect. The last three have IR fetched. -/
theorem step_next {s t : State} (h : s.run = .running) (hs : step s = .next t) :
    (256 ≤ s.pc ∧ t = s.raise (.outOfBoundsMem s.pc)) ∨
    ∃ op, s.mem.read s.pc = .ok op ∧
      ((decodeOpcode op s.operandBytes = none ∧ t = (s.setIr op).raise (.illegalInstruction op)) ∨
       ∃ i, decodeOpcode op s.operandBytes = some i ∧
        ((∃ f, OperandFault s.pc i.operands f ∧ t = (s.setIr op).raise f) ∨ Effect (s.setIr op) i t)) := by
  rcases step_cases h with ⟨hpc, h1⟩ | ⟨op, hr, hd, h1⟩ | ⟨op, i, hr, hd, h1⟩ <;> rw [hs] at h1
  · cases h1; exact .inl ⟨hpc, rfl⟩
  · cases h1; exact .inr ⟨op, hr, .inl ⟨hd, rfl⟩⟩
  · rcases exec_cases i (s.setIr op) with ⟨u, he, h2⟩ | ⟨f, hf, h2⟩ <;> rw [h2] at h1 <;> cases h1
    · exact .inr ⟨op, hr, .inr ⟨i, hd, .inr he⟩⟩
    · exact .inr ⟨op, hr, .inr ⟨i, hd, .inl ⟨f, hf, rfl⟩⟩⟩

end Sys2Proof.Machine
end

