-- ==== Sys2Proof/Laws/PerInstr.lean ====
section
/-! SUPPORT. Facts about every instruction as syntax, one lemma per constructor (LAWS.json). -/

namespace Sys2Proof.Laws.EncodingShape

/-- A well-formed instruction is encoded in as many bytes as its length, its opcode first (`30_encoding.md` R50, R58). -/
def Statement (i : Instr) : Prop :=
  i.wellFormed = true → (encode i).length = i.length ∧ (encode i).head? = some i.opcode

theorem hlt : Statement .hlt := fun _ => ⟨rfl, rfl⟩

theorem ldi (reg imm8 : Operand) : Statement (.ldi reg imm8) := by
  intro h
  cases reg <;> cases imm8 <;> simp_all [Instr.wellFormed, Operand.isReg, Operand.isImm, encode, Instr.operands, Instr.length]

theorem prn (reg : Operand) : Statement (.prn reg) := by
  intro h
  cases reg <;> simp_all [Instr.wellFormed, Operand.isReg, encode, Instr.operands, Instr.length]

theorem mul (regA regB : Operand) : Statement (.mul regA regB) := by
  intro h
  cases regA <;> cases regB <;> simp_all [Instr.wellFormed, Operand.isReg, encode, Instr.operands, Instr.length]

theorem cmp (regA regB : Operand) : Statement (.cmp regA regB) := by
  intro h
  cases regA <;> cases regB <;> simp_all [Instr.wellFormed, Operand.isReg, encode, Instr.operands, Instr.length]

theorem jmp (reg : Operand) : Statement (.jmp reg) := by
  intro h
  cases reg <;> simp_all [Instr.wellFormed, Operand.isReg, encode, Instr.operands, Instr.length]

theorem jeq (reg : Operand) : Statement (.jeq reg) := by
  intro h
  cases reg <;> simp_all [Instr.wellFormed, Operand.isReg, encode, Instr.operands, Instr.length]

theorem jne (reg : Operand) : Statement (.jne reg) := by
  intro h
  cases reg <;> simp_all [Instr.wellFormed, Operand.isReg, encode, Instr.operands, Instr.length]

end Sys2Proof.Laws.EncodingShape
end

