-- ==== Sys2Proof/Tests/Slice0.lean ====
section
/-! SUPPORT. Tests on fixed values, each with its source in the spec, and a witness for the hypotheses of each statement of
Certificates/Slice0/Obligations.lean. -/

namespace Sys2Proof.Tests

open Sys2Proof.Machine

/-! ## Helpers -/

/-- The reset state with bytes stored at `pc` and PC there. -/
def at_ (pc : Nat) (bytes : List Byte) : State :=
  { State.reset with pc := pc, mem := Memory.storeBytes [] pc bytes }

/-- The outcome is a next state that satisfies `p`. -/
def next? (o : Host.Outcome State Fault Refusal) (p : State → Bool) : Bool :=
  match o with
  | .next t => p t
  | .fault _ => false
  | .refused _ => false

/-! ## Well-formedness: an ill-formed term for each check -/

theorem test_wf_ldi_register_above_seven : (Instr.ldi (some 8) (some 0)).wellFormed = false := by decide
theorem test_wf_ldi_register_missing : (Instr.ldi none (some 0)).wellFormed = false := by decide
theorem test_wf_ldi_immediate_missing : (Instr.ldi (some 0) none).wellFormed = false := by decide
theorem test_wf_prn_register_above_seven : (Instr.prn (some 255)).wellFormed = false := by decide
theorem test_wf_mul_registers :
    (Instr.mul (some 8) (some 0)).wellFormed = false ∧ (Instr.mul (some 0) (some 8)).wellFormed = false := by decide
theorem test_wf_cmp_registers :
    (Instr.cmp none (some 0)).wellFormed = false ∧ (Instr.cmp (some 0) none).wellFormed = false := by decide
theorem test_wf_jumps_registers :
    (Instr.jmp (some 8)).wellFormed = false ∧ (Instr.jeq none).wellFormed = false ∧
    (Instr.jne (some 9)).wellFormed = false := by decide

/-! ## Decoding: words written out from `30_encoding.md` R55 and R51 -/

theorem test_decode_hlt : decode [0b00000001] = .ok .hlt := by decide
theorem test_decode_ldi : decode [0b10000010, 0b00000111, 0b10000001] = .ok (.ldi (some 7) (some 129)) := by decide
theorem test_decode_prn : decode [0b01000111, 0b00000100] = .ok (.prn (some 4)) := by decide
theorem test_decode_mul : decode [0b10100010, 0b00000110, 0b00000001] = .ok (.mul (some 6) (some 1)) := by decide
theorem test_decode_cmp : decode [0b10100111, 0b00000010, 0b00000101] = .ok (.cmp (some 2) (some 5)) := by decide
theorem test_decode_jmp : decode [0b01010100, 0b00000011] = .ok (.jmp (some 3)) := by decide
theorem test_decode_jeq : decode [0b01010101, 0b00001001] = .ok (.jeq (some 9)) := by decide
theorem test_decode_jne : decode [0b01010110, 0b00000000] = .ok (.jne (some 0)) := by decide
/-- `95_test_vectors.md` V-DEC: the neighbours of the defined opcodes and both ends. -/
theorem test_decode_illegal :
    ([0x00, 0x02, 0x46, 0x48, 0x53, 0x57, 0x81, 0x83, 0xA0, 0xA1, 0xA3, 0xA6, 0xA8, 0xFF] : List Byte).all
      (fun op => decode [op, 0, 0] = .error (.illegalOpcode op)) = true := by decide
/-- Table numbering: the opcode in bits 7..0, then the operand bytes upward. -/
theorem test_decode_table_word : decodeTableWord 24 0x0509A2 = some (.mul (some 9) (some 5)) := by decide
theorem test_decode_table_word_short : decodeTableWord 8 0xFFFF82 = some (.ldi (some 0) (some 0)) := by decide
theorem test_encode : encode (.ldi (some 0) (some 8)) = [0x82, 0x00, 0x08] := by decide

/-! ## One step each (`95_test_vectors.md` section 2) -/

/-- V-LDI: `82 03 FF`. -/
theorem test_ldi : next? (step (at_ 0 [0x82, 0x03, 0xFF])) (fun t => t.reg 3 = 255 ∧ t.pc = 3) = true := by decide
/-- V-LDI: `82 FF 05` is not masked to 7. -/
theorem test_ldi_bad_register :
    next? (step (at_ 0 [0x82, 0xFF, 0x05])) (fun t => t.run = .faulted (.outOfBoundsReg 255) ∧ t.pc = 0 ∧ t.reg 7 = 244)
      = true := by decide
/-- V-PRN: `47 07` from reset. -/
theorem test_prn : next? (step (at_ 9 [0x47, 0x07])) (fun t => t.out = [244] ∧ t.pc = 11) = true := by decide
/-- V-PRN: `47` at 255. -/
theorem test_prn_operand_outside :
    next? (step (at_ 255 [0x47])) (fun t => t.run = .faulted (.outOfBoundsMem 256) ∧ t.out = [] ∧ t.pc = 255) = true := by
  decide
/-- V-MUL: `A2 07 07` from reset, 244*244 mod 256 = 144. -/
theorem test_mul : next? (step (at_ 0 [0xA2, 0x07, 0x07])) (fun t => t.reg 7 = 144 ∧ t.pc = 3 ∧ t.fl = 0) = true := by
  decide
/-- V-MUL: `A2 09 08`, the first register byte is checked first. -/
theorem test_mul_bad_registers :
    next? (step (at_ 0 [0xA2, 0x09, 0x08])) (fun t => t.run = .faulted (.outOfBoundsReg 9)) = true := by decide
/-- V-CMP: `A7 00 07` from reset with FL set: 0 against 244 clears it. -/
theorem test_cmp_clears :
    next? (step { at_ 3 [0xA7, 0x00, 0x07] with fl := 0xFF }) (fun t => t.fl = 0x00 ∧ t.pc = 6) = true := by decide
/-- V-CMP: equal values with FL 0xFE give 0xFF. -/
theorem test_cmp_sets :
    next? (step { at_ 0 [0xA7, 0x03, 0x03] with fl := 0xFE }) (fun t => t.fl = 0xFF) = true := by decide
/-- V-JMP: `54 07` at 0 from reset. -/
theorem test_jmp : next? (step (at_ 0 [0x54, 0x07])) (fun t => t.pc = 244) = true := by decide
/-- Program P8: a jump to address 0 leaves PC 0. -/
theorem test_jmp_to_zero : next? (step (at_ 0 [0x54, 0x00])) (fun t => t.pc = 0 ∧ t.run = .running) = true := by decide
/-- V-JEQ: `55 09` at 6 with FL 0x01 faults. -/
theorem test_jeq_taken_bad_register :
    next? (step { at_ 6 [0x55, 0x09] with fl := 0x01 }) (fun t => t.run = .faulted (.outOfBoundsReg 9) ∧ t.pc = 6) = true := by
  decide
/-- V-JEQ: `55` at 255 with FL 0x00 gives PC 257, still Running. -/
theorem test_jeq_not_taken_at_top :
    next? (step (at_ 255 [0x55])) (fun t => t.pc = 257 ∧ t.run = .running) = true := by decide
/-- V-JNE: `56 07` at 20 with FL 0x00 is taken. -/
theorem test_jne_taken : next? (step (at_ 20 [0x56, 0x07])) (fun t => t.pc = 244) = true := by decide
/-- V-JNE: `56 03` at 20 with FL 0x01 gives PC 22. -/
theorem test_jne_not_taken :
    next? (step { at_ 20 [0x56, 0x03] with fl := 0x01 }) (fun t => t.pc = 22) = true := by decide
/-- V-HLT: `01` at 255. -/
theorem test_hlt : next? (step (at_ 255 [0x01])) (fun t => t.run = .halted ∧ t.pc = 255 ∧ t.ir = 0x01) = true := by decide
/-- V-HLT: an operand byte 0x01 does not halt. -/
theorem test_hlt_operand : next? (step (at_ 0 [0x82, 0x00, 0x01])) (fun t => t.run = .running) = true := by decide

/-- V-ADD: 244 + 12 = 0 and 200 + 100 = 44 modulo 256. -/
theorem test_alu_add : aluAdd 244 12 = 0 ∧ aluAdd 200 100 = 44 := by decide
/-- V-RST: the first cycle after an empty image. -/
theorem test_empty_image :
    next? (step State.reset) (fun t => t.run = .faulted (.illegalInstruction 0x00) ∧ t.pc = 0) = true := by decide
/-- `60_exceptions.md` R116. -/
theorem test_codes :
    RunStatus.code .halted = 0 ∧ RunStatus.code (.faulted (.illegalInstruction 0)) = 1 ∧
    RunStatus.code (.faulted (.outOfBoundsReg 8)) = 2 ∧ RunStatus.code (.faulted .unsupportedOperation) = 3 ∧
    FaultKind.programLoadError.code = 4 := by decide
/-- A placed word is what the next step runs. -/
theorem test_with_fetch_word :
    next? (step (State.reset.withFetchWord 24 0x080082)) (fun t => t.reg 0 = 8 ∧ t.pc = 3) = true := by decide

/-- Program P1's output `72` and program P9's `244`, each with a newline. -/
theorem test_out_text :
    { State.reset with out := [72, 244, 0] }.outText = ['7', '2', '\n', '2', '4', '4', '\n', '0', '\n'] := by decide

/-! ## Witnesses: the hypotheses of each statement can be met, each clause at a boundary -/

theorem witness_DecodeOfEncode :
    Instr.wellFormed .hlt = true ∧ (Instr.ldi (some 7) (some 255)).wellFormed = true ∧ (Instr.prn (some 7)).wellFormed = true ∧
    (Instr.mul (some 7) (some 0)).wellFormed = true ∧ (Instr.cmp (some 0) (some 7)).wellFormed = true ∧
    (Instr.jmp (some 7)).wellFormed = true ∧ (Instr.jeq (some 7)).wellFormed = true ∧
    (Instr.jne (some 7)).wellFormed = true := by decide

theorem witness_EncodeOfDecode :
    decode [0x82, 0xFF, 0xFF, 0x00] = .ok (.ldi (some 255) (some 255)) ∧ decode [0x55] = .ok (.jeq none) := by decide

theorem witness_OpcodesOutsideTheEightAreIllegal :
    (at_ 255 [0xFF]).run = .running ∧ (at_ 255 [0xFF]).mem.read (at_ 255 [0xFF]).pc = .ok 0xFF ∧
    (0xFF : Byte) ∉ [(0x01 : Byte), 0x82, 0x47, 0xA2, 0xA7, 0x54, 0x55, 0x56] := by decide

theorem witness_OpcodeFixesLength :
    decode [0x01] = .ok .hlt ∧ decode [0x56] = .ok (.jne none) ∧ decode [0xA7, 0x00] = .ok (.cmp (some 0) none) := by decide

theorem witness_StartsRunningAtZero : ∃ s, boot [0x54, 0x00] = .ok s := ⟨_, rfl⟩

theorem witness_LoaderPlacesImage :
    (List.replicate 256 (0x01 : Byte)).length ≤ 256 ∧ 256 < (List.replicate 257 (0x01 : Byte)).length := by
  rw [List.length_replicate, List.length_replicate]
  decide

theorem witness_ResetRegisters : (6 : RegIndex).val ≤ 6 := by decide
theorem witness_ResetMemoryFlagsOutput : 255 < 256 := by decide
theorem witness_AccessorsCheckRange : 255 < 256 ∧ 256 ≤ 256 := by decide
theorem witness_WriteAccessorChangesOneCell : Memory.wf [(255, 0xFF)] = true ∧ 255 < 256 ∧ 256 ≤ 256 := by decide

theorem witness_CanonicalMemoriesReadingAlikeAreEqual :
    Memory.wf [(0, 1), (255, 2)] = true ∧
    ∀ a, Memory.read [(0, 1), (255, 2)] a = Memory.read (Memory.put [(0, 1)] 255 2) a :=
  ⟨by decide, fun _ => rfl⟩

theorem witness_NoStepWritesMemory : ∃ t, step (at_ 0 [0x82, 0x00, 0x08]) = .next t := ⟨_, rfl⟩

theorem witness_CompareReadingsAgreeOnLegalFlags :
    State.reset.fl = 0x00 ∧ { State.reset with fl := 0x01 }.fl = 0x01 ∧
    (∃ t, State.reset.alu .compare 0 7 = .ok t) ∧ ∃ t, { State.reset with fl := 0x01 }.alu .compare 6 6 = .ok t :=
  ⟨rfl, rfl, ⟨_, rfl⟩, ⟨_, rfl⟩⟩

theorem witness_UnsupportedOperationOnlyAtTheAluBlock :
    (at_ 0 [0xA2, 0x00, 0x00]).run = .running ∧ ∃ t, step (at_ 0 [0xA2, 0x00, 0x00]) = .next t := ⟨rfl, _, rfl⟩

/-- A register byte at both ends of its range: for LDI, PRN and JMP. -/
theorem witness_LdiLoadsImmediate : (0 : Byte).toNat = (0 : RegIndex).val ∧ (7 : Byte).toNat = (7 : RegIndex).val := by decide
theorem witness_PrnEmitsRegister : (7 : Byte).toNat = (7 : RegIndex).val := by decide
theorem witness_JmpJumpsToRegister : (7 : Byte).toNat = (7 : RegIndex).val := by decide
theorem witness_MulMultiplies : (7 : Byte).toNat = (7 : RegIndex).val ∧ (0 : Byte).toNat = (0 : RegIndex).val := by decide
theorem witness_CmpWritesFlags :
    (7 : Byte).toNat = (7 : RegIndex).val ∧ (0 : Byte).toNat = (0 : RegIndex).val ∧
    State.reset.reg 7 ≠ State.reset.reg 0 ∧ State.reset.reg 7 = State.reset.reg 7 := by decide
theorem witness_JeqJumpsWhenEqual :
    { State.reset with fl := 0x01 }.fl.getLsbD 0 = true ∧ State.reset.fl.getLsbD 0 = false ∧
    (7 : Byte).toNat = (7 : RegIndex).val := by decide
theorem witness_JneJumpsWhenNotEqual :
    State.reset.fl.getLsbD 0 = false ∧ { State.reset with fl := 0xFF }.fl.getLsbD 0 = true ∧
    (7 : Byte).toNat = (7 : RegIndex).val := by decide

theorem witness_LdiThenPrnEmitsImmediate :
    (7 : Byte).toNat < 8 ∧
    ∃ t u, exec (.ldi (some 7) (some 255)) State.reset = .next t ∧ exec (.prn (some 7)) t = .next u :=
  ⟨by decide, _, _, rfl, rfl⟩

/-- The four clauses' premises: operand 8 is the least bad register byte, 7 the greatest good one. -/
theorem witness_MulAndCmpCheckOperandsInOrder :
    8 ≤ (8 : Byte).toNat ∧ (7 : Byte).toNat < 8 ∧
    next? (exec (.mul none (some 0)) (at_ 255 [])) (fun t => t.run = .faulted (.outOfBoundsMem 256)) = true ∧
    next? (exec (.cmp (some 8) none) (at_ 254 [])) (fun t => t.run = .faulted (.outOfBoundsMem 256)) = true ∧
    next? (exec (.mul (some 8) (some 9)) State.reset) (fun t => t.run = .faulted (.outOfBoundsReg 8)) = true ∧
    next? (exec (.cmp (some 7) (some 8)) State.reset) (fun t => t.run = .faulted (.outOfBoundsReg 8)) = true := by decide

theorem witness_LdiChecksOperandsInOrder :
    8 ≤ (8 : Byte).toNat ∧
    next? (exec (.ldi none none) (at_ 255 [])) (fun t => t.run = .faulted (.outOfBoundsMem 256)) = true ∧
    next? (exec (.ldi (some 255) none) (at_ 254 [])) (fun t => t.run = .faulted (.outOfBoundsMem 256)) = true ∧
    next? (exec (.ldi (some 8) (some 0)) State.reset) (fun t => t.run = .faulted (.outOfBoundsReg 8)) = true := by decide

theorem witness_OneRegisterInstructionsCheckOperand :
    { State.reset with fl := 0x01 }.fl.getLsbD 0 = true ∧ State.reset.fl.getLsbD 0 = false ∧ 8 ≤ (8 : Byte).toNat := by decide

theorem witness_StepRunsDecodedInstruction :
    (at_ 253 [0x82, 0x07, 0xFF]).run = .running ∧
    decode ((at_ 253 [0x82, 0x07, 0xFF]).mem.bytesFrom 253 3) = .ok (.ldi (some 7) (some 255)) ∧
    (at_ 255 [0x55]).run = .running ∧ decode ((at_ 255 [0x55]).mem.bytesFrom 255 3) = .ok (.jeq none) := by decide

theorem witness_FetchOutsideMemoryFaults :
    (at_ 256 []).run = .running ∧ 256 ≤ (at_ 256 []).pc ∧ 256 ≤ (at_ 257 []).pc := by decide

theorem witness_IllegalOpcodeFaultsPrecisely :
    (at_ 255 [0xA0]).run = .running ∧ (at_ 255 [0xA0]).mem.bytesFrom 255 3 = [0xA0] ∧
    decode [0xA0] = .error (.illegalOpcode 0xA0) := by decide

theorem witness_RunningMachineAlwaysSteps : State.reset.run = .running := rfl

theorem witness_TerminalStatesAreNeverLeft :
    { State.reset with run := .halted }.run = .halted ∧
    { State.reset with run := .faulted (.outOfBoundsMem 257) }.run = .faulted (.outOfBoundsMem 257) := ⟨rfl, rfl⟩

theorem witness_HaltedOnlyByHaltOpcode :
    ∃ t, step (at_ 255 [0x01]) = .next t ∧ t.run = .halted ∧ (at_ 255 [0x01]).mem.read 255 = .ok 0x01 :=
  ⟨_, rfl, by decide⟩

theorem witness_ProgramCounterAfterEachInstruction :
    (∃ t, decode ((at_ 255 [0x55]).mem.bytesFrom 255 3) = .ok (.jeq none) ∧ step (at_ 255 [0x55]) = .next t ∧
      t.run = .running) ∧
    (∃ t, step (at_ 254 [0x82, 0x00]) = .next t ∧ t.run ≠ .running) :=
  ⟨⟨_, by decide, rfl, by decide⟩, ⟨_, rfl, by decide⟩⟩

theorem witness_FaultsArePrecise :
    (∃ t, step (at_ 257 []) = .next t ∧ t.run = .faulted (.outOfBoundsMem 257)) ∧
    (∃ t, step (at_ 254 [0x82, 0x00]) = .next t ∧ t.run = .faulted (.outOfBoundsMem 256) ∧
      (at_ 254 [0x82, 0x00]).mem.read 254 = .ok 0x82) :=
  ⟨⟨_, rfl, by decide⟩, ⟨_, rfl, by decide⟩⟩

theorem witness_PrnInMemory :
    (at_ 254 [0x47, 0x07]).mem.read 254 = .ok 0x47 ∧ (at_ 254 [0x47, 0x07]).mem.read 255 = .ok 0x07 ∧
    (at_ 254 [0x47, 0x08]).mem.read 255 = .ok 0x08 ∧ (at_ 255 [0x47]).mem.read 255 = .ok 0x47 ∧
    (at_ 254 [0x47, 0x07]).run = .running := by decide

theorem witness_JmpInMemory :
    (at_ 254 [0x54, 0x07]).mem.read 254 = .ok 0x54 ∧ (at_ 254 [0x54, 0x07]).mem.read 255 = .ok 0x07 ∧
    (at_ 254 [0x54, 0x08]).mem.read 255 = .ok 0x08 ∧ (at_ 255 [0x54]).mem.read 255 = .ok 0x54 ∧
    (at_ 254 [0x54, 0x07]).run = .running := by decide

theorem witness_RegistersChangeOnlyByLdiAndMul :
    (∃ t, step (at_ 253 [0x82, 0x07, 0xFF]) = .next t ∧ t.reg 7 ≠ (at_ 253 [0x82, 0x07, 0xFF]).reg 7) ∧
    (∃ t, step (at_ 253 [0xA2, 0x07, 0x07]) = .next t ∧ t.reg 7 ≠ (at_ 253 [0xA2, 0x07, 0x07]).reg 7) :=
  ⟨⟨_, rfl, by decide⟩, ⟨_, rfl, by decide⟩⟩

theorem witness_FlagsWrittenByCmpAndReadByConditionalJumps :
    (∃ t, exec (.cmp (some 0) (some 0)) State.reset = .next t ∧ t.fl ≠ State.reset.fl) ∧
    (∃ t, State.reset.alu .compare 0 0 = .ok t ∧ t.fl ≠ State.reset.fl) ∧
    (∃ t, exec (.jeq none) State.reset = .next t ∧ (0xFE : Byte).getLsbD 0 = State.reset.fl.getLsbD 0) ∧
    (∃ t, exec .hlt State.reset = .next t) :=
  ⟨⟨_, rfl, by decide⟩, ⟨_, rfl, by decide⟩, ⟨_, rfl, by decide⟩, ⟨_, rfl⟩⟩

theorem witness_OutputGrowsOnlyByPrn :
    ∃ t, step (at_ 254 [0x47, 0x07]) = .next t ∧ t.out ≠ (at_ 254 [0x47, 0x07]).out := ⟨_, rfl, by decide⟩

theorem witness_InstructionRegisterIsUnobservable :
    (∃ t, step (at_ 255 [0x01]) = .next t ∧ (at_ 255 [0x01]).pc < 256) ∧
    (∃ t, step (at_ 256 []) = .next t ∧ 256 ≤ (at_ 256 []).pc) :=
  ⟨⟨_, rfl, by decide⟩, ⟨_, rfl, by decide⟩⟩

theorem witness_BootedMachineMeetsInvariant : ∃ s, boot [0x82, 0x00, 0x08] = .ok s := ⟨_, rfl⟩

/-- A state at the edge of the invariant (PC 257, FL set) with a next state that meets it again. -/
theorem witness_StepKeepsInvariant :
    Inv { at_ 257 [] with fl := 0x01 } ∧ ∃ t, step { at_ 257 [] with fl := 0x01 } = .next t :=
  ⟨⟨by decide, by decide, .inr rfl, trivial⟩, _, rfl⟩

theorem witness_RunsKeepInvariantMemoryAndOutput :
    Inv (at_ 0 [0x47, 0x07]) ∧ ∃ t, Reaches (at_ 0 [0x47, 0x07]) t ∧ t.out = [244] :=
  ⟨⟨by decide, by decide, .inl rfl, trivial⟩, _, .tail (.refl _) rfl, by decide⟩

theorem witness_JumpToSelfRunsForever :
    (at_ 244 [0x54, 0x07]).run = .running ∧ (at_ 244 [0x54, 0x07]).mem.read 244 = .ok 0x54 ∧
    (at_ 244 [0x54, 0x07]).mem.read 245 = .ok 0x07 ∧ (7 : Byte).toNat = (7 : RegIndex).val ∧
    ((at_ 244 [0x54, 0x07]).reg 7).toNat = (at_ 244 [0x54, 0x07]).pc := by decide

theorem witness_UnloadedMemoryIsIllegal :
    ∃ s, boot [0x82, 0x00, 0x01] = .ok s ∧
      ({ s with pc := 3 }.mem = s.mem ∧ { s with pc := 3 }.run = .running ∧
        [0x82, 0x00, (0x01 : Byte)].length ≤ { s with pc := 3 }.pc ∧ { s with pc := 3 }.pc < 256) ∧
      ({ s with pc := 255 }.mem = s.mem ∧ { s with pc := 255 }.run = .running ∧
        [0x82, 0x00, (0x01 : Byte)].length ≤ { s with pc := 255 }.pc ∧ { s with pc := 255 }.pc < 256) :=
  ⟨_, rfl, ⟨rfl, rfl, by decide, by decide⟩, ⟨rfl, rfl, by decide, by decide⟩⟩

theorem witness_PlacedWordIsExecutedNext :
    (at_ 253 [0x01, 0x01, 0x01]).mem.wf = true ∧ (at_ 253 []).pc ≤ 253 ∧
    decodeTableWord 24 0xFF0782 = some (.ldi (some 7) (some 255)) := by decide

end Sys2Proof.Tests
end

/-! # Proofs of the statements about the state (`10_state.md`)

First a layer of facts about an instruction's effect, its operand faults and a whole step, then the statements. -/

namespace Sys2Proof.Machine

/-! ## What an instruction's effect does to each part of the state -/

/-- No instruction writes memory (`20_memory.md` R34). -/
theorem effect_mem {s t : State} {i : Instr} (h : Effect s i t) : t.mem = s.mem := by
  cases h <;> rfl

/-- RUN changes only by HLT (`10_state.md` R24). -/
theorem effect_run {s t : State} {i : Instr} (h : Effect s i t) :
    t.run = s.run ∨ (i = .hlt ∧ t.run = .halted) := by
  cases h
  case hlt => exact .inr ⟨rfl, rfl⟩
  all_goals exact .inl rfl

/-- FL changes only by CMP, which stores Compare's result (`10_state.md` R19). -/
theorem effect_fl {s t : State} {i : Instr} (h : Effect s i t) :
    t.fl = s.fl ∨ ((∃ oa ob, i = .cmp oa ob) ∧ ∃ x y : Byte, t.fl = compareFlags s.fl x y) := by
  cases h
  case cmp => exact .inr ⟨⟨_, _, rfl⟩, _, _, rfl⟩
  all_goals exact .inl rfl

/-- OUT changes only by PRN, which appends its register's value (`10_state.md` R25). -/
theorem effect_out {s t : State} {i : Instr} (h : Effect s i t) :
    t.out = s.out ∨ ∃ (b : Byte) (r : RegIndex), i = .prn (some b) ∧ b.toNat = r.val ∧ t.out = s.out ++ [s.reg r] := by
  cases h
  case prn b r hr => exact .inr ⟨b, r, rfl, hr, rfl⟩
  all_goals exact .inl rfl

/-- A register changes only by an LDI or a MUL whose first operand names it (`10_state.md` R12). -/
theorem effect_reg {s t : State} {i : Instr} (h : Effect s i t) (r : RegIndex) :
    t.reg r = s.reg r ∨
    (∃ b : Byte, i = .ldi (some b) (some (t.reg r)) ∧ b.toNat = r.val) ∨
    (∃ (x y : Byte) (b : RegIndex), i = .mul (some x) (some y) ∧ x.toNat = r.val ∧ y.toNat = b.val ∧
      t.reg r = aluMultiply (s.reg r) (s.reg b)) := by
  cases h
  case ldi b v dest hr =>
    by_cases hd : dest = r
    · subst hd
      exact .inr (.inl ⟨b, by simp, hr⟩)
    · exact .inl (by simp [setReg_reg, hd])
  case mul x y dest b ha hb =>
    by_cases hd : dest = r
    · subst hd
      exact .inr (.inr ⟨x, y, b, rfl, ha, hb, by simp⟩)
    · exact .inl (by simp [setReg_reg, hd])
  all_goals exact .inl rfl

/-- From a legal FL Compare makes a legal FL (`10_state.md` R21). -/
theorem compareFlags_legal {fl : Byte} (h : fl = 0x00 ∨ fl = 0x01) (x y : Byte) :
    compareFlags fl x y = 0x00 ∨ compareFlags fl x y = 0x01 := by
  unfold compareFlags
  split
  · rcases h with rfl | rfl <;> exact .inr (by decide)
  · exact .inl rfl

/-- An instruction whose second operand byte lies in memory leaves room for three bytes. -/
theorem second_operand_in_memory {s : State} {op b : Byte} {i : Instr} (hd : decodeOpcode op s.operandBytes = some i)
    (hk : i.operands[1]? = some (some b)) : s.pc + 2 < 256 :=
  (read_ok.mp (operand_read hd hk)).1

/-- PC stays in 0..257 when a fetched instruction completes; 257 is a not-taken jump at 255 (`10_state.md` R16). -/
theorem effect_pc_le {s t : State} {op : Byte} {i : Instr} (hd : decodeOpcode op s.operandBytes = some i)
    (hpc : s.pc < 256) (h : Effect s i t) : t.pc ≤ 257 := by
  cases h
  case hlt => rw [halt_pc]; omega
  case ldi | mul | cmp =>
    have := second_operand_in_memory hd rfl
    change s.pc + 3 ≤ 257
    omega
  case prn | jeqNotTaken | jneNotTaken =>
    change s.pc + 2 ≤ 257
    omega
  case jmp r _ | jeqTaken r _ _ | jneTaken r _ _ =>
    have := (s.reg r).isLt
    rw [jumpTo_pc]
    omega

/-! ## Which fault an instruction takes -/

/-- The fault that ends an instruction's execute phase, the counterpart of `Effect`: what its operand form answers, for a
conditional jump only where it is taken (`60_exceptions.md` R119, `43_jumps.md` R99). -/
inductive Faulting (s : State) : Instr → Fault → Prop where
  | ldi {o v : Operand} {f : Fault} (h : operandsRI o v s.pc = .error f) : Faulting s (.ldi o v) f
  | prn {o : Operand} {f : Fault} (h : operandsR o s.pc = .error f) : Faulting s (.prn o) f
  | mul {oa ob : Operand} {f : Fault} (h : operandsRR oa ob s.pc = .error f) : Faulting s (.mul oa ob) f
  | cmp {oa ob : Operand} {f : Fault} (h : operandsRR oa ob s.pc = .error f) : Faulting s (.cmp oa ob) f
  | jmp {o : Operand} {f : Fault} (h : operandsR o s.pc = .error f) : Faulting s (.jmp o) f
  | jeq {o : Operand} {f : Fault} (he : s.equalFlag = true) (h : operandsR o s.pc = .error f) : Faulting s (.jeq o) f
  | jne {o : Operand} {f : Fault} (he : s.equalFlag = false) (h : operandsR o s.pc = .error f) : Faulting s (.jne o) f

theorem takeJump_error {o : Operand} {s : State} {f : Fault} (h : operandsR o s.pc = .error f) :
    takeJump o s = .error f := by
  simp [takeJump, h, bind, Except.bind]

/-- A faulting instruction raises its fault in the state it began in (`60_exceptions.md` R118). -/
theorem exec_of_faulting {s : State} {i : Instr} {f : Fault} (h : Faulting s i f) : exec i s = .next (s.raise f) := by
  cases h with
  | ldi h => simp [exec, execLdi, h, bind, Except.bind, State.conclude]
  | prn h => simp [exec, execPrn, h, bind, Except.bind, State.conclude]
  | mul h => simp [exec, execMul, aluInstr_error h, State.conclude]
  | cmp h => simp [exec, execCmp, aluInstr_error h, State.conclude]
  | jmp h => simp [exec, execJmp, takeJump_error h, State.conclude]
  | jeq he h => simp [exec, execJeq, jumpIf, he, takeJump_error h, State.conclude]
  | jne he h => simp [exec, execJne, jumpIf, he, takeJump_error h, State.conclude]

/-- Format OP_R answers a valid register byte or a fault. -/
theorem operandsR_cases (o : Operand) (pc : Nat) :
    (∃ (b : Byte) (r : RegIndex), o = some b ∧ b.toNat = r.val) ∨ ∃ f, operandsR o pc = .error f := by
  cases h : operandsR o pc with
  | ok r =>
    obtain ⟨b, ho, hb⟩ := operandsR_ok.mp h
    exact .inl ⟨b, r, ho, hb⟩
  | error f => exact .inr ⟨f, rfl⟩

/-- Format OP_R_R answers two valid register bytes or a fault. -/
theorem operandsRR_cases (oa ob : Operand) (pc : Nat) :
    (∃ (x y : Byte) (a b : RegIndex), oa = some x ∧ x.toNat = a.val ∧ ob = some y ∧ y.toNat = b.val) ∨
    ∃ f, operandsRR oa ob pc = .error f := by
  cases h : operandsRR oa ob pc with
  | ok ab =>
    obtain ⟨x, y, hx⟩ := operandsRR_ok.mp h
    exact .inl ⟨x, y, ab.1, ab.2, hx⟩
  | error f => exact .inr ⟨f, rfl⟩

/-- In every state an instruction completes or faults. -/
theorem effect_or_faulting (i : Instr) (s : State) : (∃ t, Effect s i t) ∨ ∃ f, Faulting s i f := by
  cases i with
  | hlt => exact .inl ⟨_, .hlt⟩
  | ldi o v =>
    cases h : operandsRI o v s.pc with
    | ok rv =>
      obtain ⟨b, rfl, hb, rfl⟩ := operandsRI_ok.mp h
      exact .inl ⟨_, .ldi hb⟩
    | error f => exact .inr ⟨f, .ldi h⟩
  | prn o =>
    obtain ⟨b, r, rfl, hb⟩ | ⟨f, h⟩ := operandsR_cases o s.pc
    · exact .inl ⟨_, .prn hb⟩
    · exact .inr ⟨f, .prn h⟩
  | mul oa ob =>
    obtain ⟨x, y, a, b, rfl, ha, rfl, hb⟩ | ⟨f, h⟩ := operandsRR_cases oa ob s.pc
    · exact .inl ⟨_, .mul ha hb⟩
    · exact .inr ⟨f, .mul h⟩
  | cmp oa ob =>
    obtain ⟨x, y, a, b, rfl, ha, rfl, hb⟩ | ⟨f, h⟩ := operandsRR_cases oa ob s.pc
    · exact .inl ⟨_, .cmp ha hb⟩
    · exact .inr ⟨f, .cmp h⟩
  | jmp o =>
    obtain ⟨b, r, rfl, hb⟩ | ⟨f, h⟩ := operandsR_cases o s.pc
    · exact .inl ⟨_, .jmp hb⟩
    · exact .inr ⟨f, .jmp h⟩
  | jeq o =>
    cases he : s.equalFlag with
    | false => exact .inl ⟨_, .jeqNotTaken he⟩
    | true =>
      obtain ⟨b, r, rfl, hb⟩ | ⟨f, h⟩ := operandsR_cases o s.pc
      · exact .inl ⟨_, .jeqTaken hb he⟩
      · exact .inr ⟨f, .jeq he h⟩
  | jne o =>
    cases he : s.equalFlag with
    | true => exact .inl ⟨_, .jneNotTaken he⟩
    | false =>
      obtain ⟨b, r, rfl, hb⟩ | ⟨f, h⟩ := operandsR_cases o s.pc
      · exact .inl ⟨_, .jneTaken hb he⟩
      · exact .inr ⟨f, .jne he h⟩

/-- A fault over the operand bytes of a fetched instruction carries legal information (`60_exceptions.md` R117). -/
theorem operandFault_legal {s : State} {op : Byte} {i : Instr} {f : Fault}
    (hd : decodeOpcode op s.operandBytes = some i) (hpc : s.pc < 256) (h : OperandFault s.pc i.operands f) : f.legal := by
  obtain ⟨k, hk, rfl⟩ | ⟨b, -, hb, rfl⟩ := h
  · have := operand_missing hd hk
    simp only [Fault.legal]
    omega
  · exact hb

/-! ## What a step does -/

/-- A step that has a next state is a cycle of a Running machine or stays in a Halted one. -/
theorem step_next_running_or_halted {s t : State} (h : step s = .next t) : s.run = .running ∨ t = s := by
  unfold step at h
  split at h
  · exact .inl ‹_›
  · exact .inr (by simpa using h.symm)
  · cases h

/-- A step of a Running machine runs the instruction its bytes at PC decode to. -/
theorem step_of_decodeOpcode {s : State} {op : Byte} {i : Instr} (hrun : s.run = .running)
    (hop : s.mem.read s.pc = .ok op) (hd : decodeOpcode op s.operandBytes = some i) : step s = exec i (s.setIr op) := by
  simp [step, hrun, State.cycle, hop, hd]

/-- A fetch outside memory faults with IR not written (`41_execution_cycle.md` R81). -/
theorem step_of_fetch_outside {s : State} (hrun : s.run = .running) (hpc : 256 ≤ s.pc) :
    step s = .next (s.raise (.outOfBoundsMem s.pc)) := by
  simp [step, hrun, State.cycle, read_error.mpr ⟨hpc, rfl⟩]

/-- After a fetch the cycle no longer depends on the earlier IR (`10_state.md` R22). -/
theorem step_setIr_of_fetch {s : State} (hrun : s.run = .running) (hpc : s.pc < 256) (b : Byte) :
    step (s.setIr b) = step s := by
  have hop : s.mem.read s.pc = .ok (s.mem.get s.pc) := read_ok.mpr ⟨hpc, rfl⟩
  simp only [step, setIr_run, hrun, State.cycle, setIr_mem, setIr_pc, hop, setIr_operandBytes]
  rfl

/-- A cycle that faults changes RUN and IR alone; every other cycle is the effect of the instruction at PC. -/
theorem step_raise_or_effect {s t : State} (hrun : s.run = .running) (h : step s = .next t) :
    (∃ ir f, t = (s.setIr ir).raise f) ∨
    ∃ op i, s.mem.read s.pc = .ok op ∧ decodeOpcode op s.operandBytes = some i ∧ Effect (s.setIr op) i t := by
  obtain ⟨-, rfl⟩ | ⟨op, hop, ⟨-, rfl⟩ | ⟨i, hd, ⟨f, -, rfl⟩ | he⟩⟩ := step_next hrun h
  · exact .inl ⟨s.ir, _, rfl⟩
  · exact .inl ⟨op, _, rfl⟩
  · exact .inl ⟨op, f, rfl⟩
  · exact .inr ⟨op, i, hop, hd, he⟩

/-- The byte at PC is the opcode of the instruction decoded there. -/
theorem read_opcode {s : State} {op : Byte} {i : Instr} (hop : s.mem.read s.pc = .ok op)
    (hd : decodeOpcode op s.operandBytes = some i) : s.mem.read s.pc = .ok i.opcode :=
  decodeOpcode_opcode hd ▸ hop

/-- No step writes memory (`20_memory.md` R34). -/
theorem step_mem {s t : State} (h : step s = .next t) : t.mem = s.mem := by
  obtain hrun | rfl := step_next_running_or_halted h
  · obtain ⟨ir, f, rfl⟩ | ⟨op, i, -, -, he⟩ := step_raise_or_effect hrun h
    · rfl
    · simpa using effect_mem he
  · rfl

/-! ## The invariant -/

/-- A legal fault keeps the invariant. -/
theorem inv_raise {s : State} {f : Fault} (h : Inv s) (hf : f.legal) : Inv (s.raise f) :=
  ⟨h.memory, h.pc, h.flags, hf⟩

/-- The fetch keeps the invariant. -/
theorem inv_setIr {s : State} (h : Inv s) (op : Byte) : Inv (s.setIr op) :=
  ⟨h.memory, h.pc, h.flags, h.run⟩

/-- The effect of a fetched instruction keeps the invariant. -/
theorem inv_effect {s t : State} {op : Byte} {i : Instr} (h : Inv s) (hpc : s.pc < 256)
    (hd : decodeOpcode op s.operandBytes = some i) (he : Effect s i t) : Inv t where
  memory := (effect_mem he).symm ▸ h.memory
  pc := effect_pc_le hd hpc he
  flags := by
    obtain hfl | ⟨-, x, y, hfl⟩ := effect_fl he
    · exact hfl ▸ h.flags
    · exact hfl ▸ compareFlags_legal h.flags x y
  run := by
    obtain hr | ⟨-, hr⟩ := effect_run he
    · exact hr ▸ h.run
    · exact hr ▸ trivial

/-- Settles O48: each way a step can come to its next state keeps the invariant. -/
theorem stepKeepsInvariant : Obligations.StepKeepsInvariant := by
  intro s t hinv h
  obtain hrun | rfl := step_next_running_or_halted h
  · obtain ⟨hpc, rfl⟩ | ⟨op, hop, ⟨hd, rfl⟩ | ⟨i, hd, ⟨f, hf, rfl⟩ | he⟩⟩ := step_next hrun h
    · have hle := hinv.pc
      have hlegal : s.pc = 256 ∨ s.pc = 257 := by omega
      exact inv_raise hinv hlegal
    · exact inv_raise (inv_setIr hinv op) (decodeOpcode_none.mpr (decodeOpcode_none.mp hd))
    · exact inv_raise (inv_setIr hinv op) (operandFault_legal hd (read_ok.mp hop).1 hf)
    · exact inv_effect (inv_setIr hinv op) (read_ok.mp hop).1 hd he
  · exact hinv

/-! ## Output -/

/-- Settles O44: a completed instruction extends OUT only if it is a PRN, whose operand byte is the one in memory. -/
theorem outputGrowsOnlyByPrn : Obligations.OutputGrowsOnlyByPrn := by
  intro s t hrun h
  obtain ⟨ir, f, rfl⟩ | ⟨op, i, hop, hd, he⟩ := step_raise_or_effect hrun h
  · exact .inl rfl
  · obtain hout | ⟨b, r, rfl, hb, hout⟩ := effect_out he
    · exact .inl hout
    · exact .inr ⟨read_opcode hop hd, b, r, operand_read hd (k := 0) rfl, hb, hout⟩

/-- No step shortens OUT. -/
theorem step_out_extends {s t : State} (h : step s = .next t) : ∃ emitted, t.out = s.out ++ emitted := by
  obtain hrun | rfl := step_next_running_or_halted h
  · obtain hout | ⟨-, b, r, -, -, hout⟩ := outputGrowsOnlyByPrn s t hrun h
    · exact ⟨[], by simp [hout]⟩
    · exact ⟨_, hout⟩
  · exact ⟨[], by simp⟩

/-- Settles O49, by induction on the run. -/
theorem runsKeepInvariantMemoryAndOutput : Obligations.RunsKeepInvariantMemoryAndOutput := by
  intro s t hinv hreach
  induction hreach with
  | refl => exact ⟨hinv, rfl, [], by simp⟩
  | tail _ hstep ih =>
    obtain ⟨hinvt, hmem, emitted, hout⟩ := ih
    obtain ⟨more, hmore⟩ := step_out_extends hstep
    exact ⟨stepKeepsInvariant _ _ hinvt hstep, (step_mem hstep).trans hmem, emitted ++ more, by simp [hmore, hout]⟩

/-! ## Memory -/

/-- What the canonical form says of its first cell. -/
theorem wfFrom_cons {lowest a : Nat} {v : Byte} {rest : Memory} :
    Memory.wfFrom lowest ((a, v) :: rest) = true ↔
      lowest ≤ a ∧ a < 256 ∧ v ≠ Memory.unlisted ∧ Memory.wfFrom (a + 1) rest = true := by
  simp [Memory.wfFrom, memSize, and_assoc]

@[simp] theorem get_nil (a : Nat) : Memory.get [] a = Memory.unlisted := rfl

@[simp] theorem get_head (a : Nat) (v : Byte) (rest : Memory) : Memory.get ((a, v) :: rest) a = v := by
  simp [Memory.get]

theorem get_tail {a c : Nat} (h : a ≠ c) (v : Byte) (rest : Memory) : Memory.get ((a, v) :: rest) c = rest.get c := by
  simp [Memory.get, h]

/-- A canonical memory lists no cell outside memory. -/
theorem get_outside {m : Memory} {lowest a : Nat} (h : Memory.wfFrom lowest m = true) (ha : 256 ≤ a) :
    m.get a = Memory.unlisted := by
  induction m generalizing lowest with
  | nil => rfl
  | cons c rest ih =>
    obtain ⟨-, hlt, -, hrest⟩ := wfFrom_cons.mp h
    rw [get_tail (by omega)]
    exact ih hrest

/-- Canonical lists with the same contents are the same list: the lowest listed cell of the one reads as listed in the other. -/
theorem wfFrom_ext {m n : Memory} {lo lo' : Nat} (hm : Memory.wfFrom lo m = true) (hn : Memory.wfFrom lo' n = true)
    (hget : ∀ a, m.get a = n.get a) : m = n := by
  induction m generalizing lo lo' n with
  | nil =>
    cases n with
    | nil => rfl
    | cons d rest' =>
      obtain ⟨b, w⟩ := d
      obtain ⟨-, -, hw, -⟩ := wfFrom_cons.mp hn
      exact absurd (by simpa using (hget b).symm) hw
  | cons c rest ih =>
    obtain ⟨a, v⟩ := c
    obtain ⟨-, -, hv, hrest⟩ := wfFrom_cons.mp hm
    cases n with
    | nil => exact absurd (by simpa using hget a) hv
    | cons d rest' =>
      obtain ⟨b, w⟩ := d
      obtain ⟨-, -, hw, hrest'⟩ := wfFrom_cons.mp hn
      have hab : ¬ a < b := fun hlt =>
        hv (by simpa [get_tail hlt.ne', get_below hrest' (by omega : a < b + 1)] using hget a)
      have hba : ¬ b < a := fun hlt =>
        hw (by simpa [get_tail hlt.ne', get_below hrest (by omega : b < a + 1)] using (hget b).symm)
      obtain rfl : a = b := by omega
      obtain rfl : v = w := by simpa using hget a
      have htail : rest = rest' := by
        refine ih hrest hrest' fun c => ?_
        by_cases hc : a = c
        · subst hc
          rw [get_below hrest (by omega), get_below hrest' (by omega)]
        · simpa [get_tail hc] using hget c
      rw [htail]

/-- Settles O12: reading alike is having the same contents, inside memory by the read and outside it by the canonical form. -/
theorem canonicalMemoriesReadingAlikeAreEqual : Obligations.CanonicalMemoriesReadingAlikeAreEqual := by
  intro m n hm hn hread
  refine wfFrom_ext hm hn fun a => ?_
  by_cases ha : a < 256
  · have hma : m.read a = .ok (n.get a) := (hread a).trans (read_ok.mpr ⟨ha, rfl⟩)
    exact (read_ok.mp hma).2
  · rw [get_outside hm (by omega), get_outside hn (by omega)]

/-! ## Flags -/

/-- What Compare on the ALU block does. -/
theorem alu_compare (s : State) (a b : RegIndex) :
    s.alu .compare a b = .ok (s.setFl (compareFlags s.fl (s.reg a) (s.reg b))) := rfl

/-- Settles O17: on a legal FL both readings are checked for each of its two values. -/
theorem compareReadingsAgreeOnLegalFlags : Obligations.CompareReadingsAgreeOnLegalFlags := by
  intro s t a b hfl h
  rw [alu_compare] at h
  cases h
  rw [setFl_fl, compareFlags]
  split
  · obtain h | h := hfl <;> rw [h] <;> decide
  · obtain h | h := hfl <;> rw [h] <;> decide

/-- An ALU operation that changes FL is Compare. -/
theorem alu_fl {s t : State} {op : AluOp} {a b : RegIndex} (h : s.alu op a b = .ok t) (hfl : t.fl ≠ s.fl) :
    op = .compare := by
  cases op with
  | compare => rfl
  | add | multiply => cases h; exact absurd rfl hfl
  | other => cases h

/-- An instruction that changes FL is a CMP: one that faults leaves FL. -/
theorem exec_fl {s t : State} {i : Instr} (h : exec i s = .next t) (hfl : t.fl ≠ s.fl) : ∃ oa ob, i = .cmp oa ob := by
  obtain ⟨u, he, hu⟩ | ⟨f, -, hu⟩ := exec_cases i s <;> rw [hu] at h <;> cases h
  · obtain heq | ⟨hcmp, -⟩ := effect_fl he
    · exact absurd heq hfl
    · exact hcmp
  · exact absurd rfl hfl

/-- What an instruction looks at in FL: JEQ and JNE bit 0, every other one nothing (`10_state.md` R19). -/
def SameTest (i : Instr) (s : State) (fl : Byte) : Prop :=
  (∃ o, i = .jeq o ∨ i = .jne o) → (s.setFl fl).equalFlag = s.equalFlag

/-- With another FL that its test does not tell apart, an instruction faults with the same fault. -/
theorem faulting_setFl {s : State} {i : Instr} {f : Fault} {fl : Byte} (htest : SameTest i s fl)
    (h : Faulting s i f) : Faulting (s.setFl fl) i f := by
  cases h with
  | ldi h => exact .ldi h
  | prn h => exact .prn h
  | mul h => exact .mul h
  | cmp h => exact .cmp h
  | jmp h => exact .jmp h
  | jeq he h => exact .jeq ((htest ⟨_, .inl rfl⟩).trans he) h
  | jne he h => exact .jne ((htest ⟨_, .inr rfl⟩).trans he) h

/-- With another FL that its test does not tell apart, an instruction has the same effect on all but FL. -/
theorem effect_setFl {s t : State} {i : Instr} {fl : Byte} (htest : SameTest i s fl) (h : Effect s i t) :
    ∃ u, Effect (s.setFl fl) i u ∧ u.setFl t.fl = t := by
  cases h with
  | hlt => exact ⟨_, .hlt, rfl⟩
  | ldi hr => exact ⟨_, .ldi hr, rfl⟩
  | prn hr => exact ⟨_, .prn hr, rfl⟩
  | mul ha hb => exact ⟨_, .mul ha hb, rfl⟩
  | cmp ha hb => exact ⟨_, .cmp ha hb, rfl⟩
  | jmp hr => exact ⟨_, .jmp hr, rfl⟩
  | jeqTaken hr he => exact ⟨_, .jeqTaken hr ((htest ⟨_, .inl rfl⟩).trans he), rfl⟩
  | jeqNotTaken he => exact ⟨_, .jeqNotTaken ((htest ⟨_, .inl rfl⟩).trans he), rfl⟩
  | jneTaken hr he => exact ⟨_, .jneTaken hr ((htest ⟨_, .inr rfl⟩).trans he), rfl⟩
  | jneNotTaken he => exact ⟨_, .jneNotTaken ((htest ⟨_, .inr rfl⟩).trans he), rfl⟩

/-- With another FL that its test does not tell apart, an instruction does the same to all but FL. -/
theorem exec_setFl {s t : State} {i : Instr} {fl : Byte} (htest : SameTest i s fl) (h : exec i s = .next t) :
    ∃ u, exec i (s.setFl fl) = .next u ∧ u.setFl t.fl = t := by
  obtain ⟨t', he⟩ | ⟨f, hf⟩ := effect_or_faulting i s
  · obtain rfl : t' = t := by simpa [exec_of_effect he] using h
    obtain ⟨u, hu, hut⟩ := effect_setFl htest he
    exact ⟨u, exec_of_effect hu, hut⟩
  · obtain rfl : s.raise f = t := by simpa [exec_of_faulting hf] using h
    exact ⟨_, exec_of_faulting (faulting_setFl htest hf), rfl⟩

/-- Settles O43: the writers of FL and the reader's bit are each a lemma above. -/
theorem flagsWrittenByCmpAndReadByConditionalJumps : Obligations.FlagsWrittenByCmpAndReadByConditionalJumps :=
  ⟨fun _ _ _ => exec_fl, fun _ _ _ _ _ => alu_fl, fun _ _ _ _ h htest => exec_setFl htest h⟩

/-! ## RUN and PC -/

/-- Settles O37: the only effect that halts is HLT's, and at the byte 0x01 the step is HLT's. -/
theorem haltedOnlyByHaltOpcode : Obligations.HaltedOnlyByHaltOpcode := by
  intro s t hrun h
  constructor
  · intro hhalt
    obtain ⟨ir, f, rfl⟩ | ⟨op, i, hop, hd, he⟩ := step_raise_or_effect hrun h
    · cases hhalt
    · obtain hsame | ⟨rfl, -⟩ := effect_run he
      · simp [hsame, hrun] at hhalt
      · exact read_opcode hop hd
  · intro hop
    have hexec : step s = .next (s.setIr 0x01).halt := step_of_decodeOpcode (i := .hlt) hrun hop rfl
    obtain rfl : (s.setIr 0x01).halt = t := by simpa [hexec] using h
    rfl

/-- Bytes at PC that decode are a fetched opcode and the operand bytes after it. -/
theorem decode_bytesFrom_ok {s : State} {i : Instr} (h : decode (s.mem.bytesFrom s.pc 3) = .ok i) :
    ∃ op, s.mem.read s.pc = .ok op ∧ decodeOpcode op s.operandBytes = some i := by
  cases hop : s.mem.read s.pc with
  | ok op =>
    rw [bytesFrom_of_read hop] at h
    exact ⟨op, rfl, decode_cons_ok.mp h⟩
  | error f => simp [Memory.bytesFrom, hop, decode] at h

/-- A step of a Running machine whose bytes at PC decode to `i` faults or is `i`'s effect. -/
theorem step_raise_or_effect_of_decode {s t : State} {i : Instr} (hrun : s.run = .running)
    (hdec : decode (s.mem.bytesFrom s.pc 3) = .ok i) (h : step s = .next t) :
    ∃ op, (∃ f, t = (s.setIr op).raise f) ∨ Effect (s.setIr op) i t := by
  obtain ⟨op, hop, hd⟩ := decode_bytesFrom_ok hdec
  rw [step_of_decodeOpcode hrun hop hd] at h
  obtain ⟨u, he, hu⟩ | ⟨f, -, hu⟩ := exec_cases i (s.setIr op) <;> rw [hu] at h <;> cases h
  · exact ⟨op, .inr he⟩
  · exact ⟨op, .inl ⟨f, rfl⟩⟩

/-- An effect that ends the run leaves PC at the instruction (`41_execution_cycle.md` R82). -/
theorem effect_pc_of_stopped {s t : State} {i : Instr} (hrun : s.run = .running) (h : Effect s i t)
    (hstop : t.run ≠ .running) : t.pc = s.pc := by
  cases h
  case hlt => rfl
  all_goals exact absurd hrun hstop

/-- Settles O38: PC after a fault is `raise`'s, and otherwise each effect's own. -/
theorem programCounterAfterEachInstruction : Obligations.ProgramCounterAfterEachInstruction := by
  intro s t i hrun hdec h
  obtain ⟨op, ⟨f, rfl⟩ | he⟩ := step_raise_or_effect_of_decode hrun hdec h
  · exact ⟨fun _ => rfl, nofun⟩
  refine ⟨effect_pc_of_stopped (s := s.setIr op) hrun he, fun hgo => ?_⟩
  cases he with
  | hlt => cases hgo
  | ldi | prn | mul | cmp => rfl
  | jmp hr => exact ⟨_, _, rfl, hr, rfl⟩
  | jeqTaken hr he => exact ⟨fun _ => ⟨_, _, rfl, hr, rfl⟩, fun hclear => nomatch he.symm.trans hclear⟩
  | jeqNotTaken he => exact ⟨fun hset => (nomatch he.symm.trans hset), fun _ => rfl⟩
  | jneTaken hr he => exact ⟨fun _ => ⟨_, _, rfl, hr, rfl⟩, fun hset => nomatch he.symm.trans hset⟩
  | jneNotTaken he => exact ⟨fun hclear => (nomatch he.symm.trans hclear), fun _ => rfl⟩

/-- Settles O36: by the two terminal branches of `step`. -/
theorem terminalStatesAreNeverLeft : Obligations.TerminalStatesAreNeverLeft := by
  constructor
  · intro s h
    simp [step, h]
  · intro s f h
    simp [step, h]

/-! ## Registers -/

theorem aluMultiply_toNat (x y : Byte) : (aluMultiply x y).toNat = (x.toNat * y.toNat) % 256 :=
  BitVec.toNat_ofNat _ _

/-- Settles O42: the effect on a register, with the operand bytes found in memory. -/
theorem registersChangeOnlyByLdiAndMul : Obligations.RegistersChangeOnlyByLdiAndMul := by
  intro s t r hrun h hne
  obtain ⟨ir, f, rfl⟩ | ⟨op, i, hop, hd, he⟩ := step_raise_or_effect hrun h
  · exact absurd rfl hne
  · obtain hsame | ⟨b, rfl, hb⟩ | ⟨x, y, b, rfl, hx, hy, hprod⟩ := effect_reg he r
    · exact absurd hsame hne
    · exact .inl ⟨b, read_opcode hop hd, operand_read hd (k := 0) rfl, hb, operand_read hd (k := 1) rfl⟩
    · refine .inr ⟨x, y, b, read_opcode hop hd, operand_read hd (k := 0) rfl, hx, operand_read hd (k := 1) rfl, hy, ?_⟩
      rw [hprod, aluMultiply_toNat]
      rfl

/-- What the exchange of `p` and `q` does to a register's byte: it names the exchanged register. -/
theorem swapByte_toNat (p q : RegIndex) {r : RegIndex} {b : Byte} (h : b.toNat = r.val) :
    (swapByte p q b).toNat = (Equiv.swap p q r).val := by
  have hp := p.isLt
  have hq := q.isLt
  simp only [numRegs] at hp hq
  simp only [swapByte, h, Equiv.swap_apply_def, Fin.ext_iff]
  split
  · exact Nat.mod_eq_of_lt (by omega)
  · split
    · exact Nat.mod_eq_of_lt (by omega)
    · exact h

/-- A byte above 7 names no register, so the exchange leaves it. -/
theorem swapByte_of_not_register (p q : RegIndex) {b : Byte} (h : 8 ≤ b.toNat) : swapByte p q b = b := by
  have hp := regIndex_lt p
  have hq := regIndex_lt q
  rw [swapByte, if_neg (by omega), if_neg (by omega)]

/-- The register check of an exchanged byte answers the exchanged register or the same fault. -/
theorem regIdx_swapByte (p q : RegIndex) (b : Byte) : regIdx (swapByte p q b) = (regIdx b).map (Equiv.swap p q) := by
  cases h : regIdx b with
  | ok r => exact regIdx_ok.mpr (swapByte_toNat p q (regIdx_ok.mp h))
  | error f => rw [swapByte_of_not_register p q (regIdx_error.mp h).1, h]; rfl

/-! Each operand form answers the exchanged registers, or the same fault. -/

theorem operandsR_swap (p q : RegIndex) (o : Operand) (pc : Nat) :
    operandsR (o.map (swapByte p q)) pc = (operandsR o pc).map (Equiv.swap p q) := by
  cases o with
  | none => rfl
  | some b => exact regIdx_swapByte p q b

theorem operandsRI_swap (p q : RegIndex) (o v : Operand) (pc : Nat) :
    operandsRI (o.map (swapByte p q)) v pc = (operandsRI o v pc).map (Prod.map (Equiv.swap p q) id) := by
  cases o with
  | none => rfl
  | some b =>
    cases v with
    | none => rfl
    | some w =>
      simp only [operandsRI, Option.map_some, operandByte, bind, Except.bind, regIdx_swapByte]
      cases regIdx b <;> rfl

theorem operandsRR_swap (p q : RegIndex) (oa ob : Operand) (pc : Nat) :
    operandsRR (oa.map (swapByte p q)) (ob.map (swapByte p q)) pc =
      (operandsRR oa ob pc).map (Prod.map (Equiv.swap p q) (Equiv.swap p q)) := by
  cases oa with
  | none => rfl
  | some x =>
    cases ob with
    | none => rfl
    | some y =>
      simp only [operandsRR, Option.map_some, operandByte, bind, Except.bind, regIdx_swapByte]
      cases regIdx x with
      | error f => rfl
      | ok a => cases regIdx y <;> rfl

/-- A register of the exchanged state is the exchanged register of the state. -/
theorem swapRegs_reg (p q r : RegIndex) (s : State) : (s.swapRegs p q).reg r = s.reg (Equiv.swap p q r) := by
  simp only [State.swapRegs, setReg_reg, Equiv.swap_apply_def, eq_comm (a := r)]
  by_cases hp : p = r
  · by_cases hq : q = r <;> simp [hp, hq]
  · by_cases hq : q = r <;> simp [hp, hq]

@[simp] theorem swapRegs_reg_swap (p q r : RegIndex) (s : State) :
    (s.swapRegs p q).reg (Equiv.swap p q r) = s.reg r := by
  rw [swapRegs_reg, Equiv.swap_apply_self]

/-- Writing a register and then exchanging is exchanging and then writing the exchanged register. -/
theorem swapRegs_setReg (p q r : RegIndex) (v : Byte) (s : State) :
    (s.setReg r v).swapRegs p q = (s.swapRegs p q).setReg (Equiv.swap p q r) v := by
  refine State.ext_of_fields (fun k => ?_) rfl rfl rfl rfl rfl rfl
  simp only [swapRegs_reg, setReg_reg, Equiv.swap_apply_eq_iff]

/-- The exchanged instruction faults in the exchanged state with the same fault. -/
theorem faulting_swapRegs (p q : RegIndex) {s : State} {i : Instr} {f : Fault} (h : Faulting s i f) :
    Faulting (s.swapRegs p q) (i.swapRegs p q) f := by
  cases h with
  | ldi h => exact .ldi ((operandsRI_swap p q _ _ _).trans (congrArg _ h))
  | prn h => exact .prn ((operandsR_swap p q _ _).trans (congrArg _ h))
  | mul h => exact .mul ((operandsRR_swap p q _ _ _).trans (congrArg _ h))
  | cmp h => exact .cmp ((operandsRR_swap p q _ _ _).trans (congrArg _ h))
  | jmp h => exact .jmp ((operandsR_swap p q _ _).trans (congrArg _ h))
  | jeq he h => exact .jeq he ((operandsR_swap p q _ _).trans (congrArg _ h))
  | jne he h => exact .jne he ((operandsR_swap p q _ _).trans (congrArg _ h))

/-- The exchanged instruction in the exchanged state has the effect with the registers exchanged. -/
theorem effect_swapRegs (p q : RegIndex) {s t : State} {i : Instr} (h : Effect s i t) :
    Effect (s.swapRegs p q) (i.swapRegs p q) (t.swapRegs p q) := by
  cases h with
  | hlt => exact .hlt
  | @ldi b v r hr =>
    have := Effect.ldi (s := s.swapRegs p q) (v := v) (swapByte_toNat p q hr)
    rwa [← swapRegs_setReg] at this
  | @prn b r hr =>
    have := Effect.prn (s := s.swapRegs p q) (swapByte_toNat p q hr)
    rwa [swapRegs_reg_swap] at this
  | @mul x y a b ha hb =>
    have := Effect.mul (s := s.swapRegs p q) (swapByte_toNat p q ha) (swapByte_toNat p q hb)
    rwa [swapRegs_reg_swap, swapRegs_reg_swap, ← swapRegs_setReg] at this
  | @cmp x y a b ha hb =>
    have := Effect.cmp (s := s.swapRegs p q) (swapByte_toNat p q ha) (swapByte_toNat p q hb)
    rwa [swapRegs_reg_swap, swapRegs_reg_swap] at this
  | @jmp b r hr =>
    have := Effect.jmp (s := s.swapRegs p q) (swapByte_toNat p q hr)
    rwa [swapRegs_reg_swap] at this
  | @jeqTaken b r hr he =>
    have := Effect.jeqTaken (s := s.swapRegs p q) (swapByte_toNat p q hr) he
    rwa [swapRegs_reg_swap] at this
  | jeqNotTaken he => exact .jeqNotTaken he
  | @jneTaken b r hr he =>
    have := Effect.jneTaken (s := s.swapRegs p q) (swapByte_toNat p q hr) he
    rwa [swapRegs_reg_swap] at this
  | jneNotTaken he => exact .jneNotTaken he

/-- Settles O46: the exchange commutes with the effect of an instruction and with its fault. -/
theorem registersAreInterchangeable : Obligations.RegistersAreInterchangeable := by
  intro p q i s
  obtain ⟨t, he⟩ | ⟨f, hf⟩ := effect_or_faulting i s
  · rw [exec_of_effect he]
    exact exec_of_effect (effect_swapRegs p q he)
  · rw [exec_of_faulting hf]
    exact exec_of_faulting (faulting_swapRegs p q hf)

/-! ## The instruction register -/

/-- Settles O45: a fetch overwrites IR, and a fetch outside memory leaves it. -/
theorem instructionRegisterIsUnobservable : Obligations.InstructionRegisterIsUnobservable := by
  intro s t b hrun h
  constructor
  · intro hpc
    exact (step_setIr_of_fetch hrun hpc b).trans h
  · intro hpc
    obtain rfl : s.raise (.outOfBoundsMem s.pc) = t := by simpa [step_of_fetch_outside hrun hpc] using h
    exact step_of_fetch_outside (s := s.setIr b) hrun hpc

/-! ## Reset, and the Mnemonic Table -/

/-- Settles O6, reading each register of the reset state. -/
theorem resetRegisters : Obligations.ResetRegisters := by
  constructor
  · decide
  · decide

/-- Program load changes memory alone (`70_reset_and_hazards.md` R131). -/
theorem load_ok {s t : State} {image : List Byte} (h : s.load image = .ok t) : ∃ m, t = { s with mem := m } := by
  unfold State.load at h
  split at h
  · next m _ => exact ⟨m, by simpa using h.symm⟩
  · cases h

/-- Settles O7: a load leaves PC and RUN as reset set them. -/
theorem startsRunningAtZero : Obligations.StartsRunningAtZero := by
  refine ⟨rfl, rfl, fun image s h => ?_⟩
  obtain ⟨m, rfl⟩ := load_ok (h : State.reset.load image = .ok s)
  exact ⟨rfl, rfl⟩

/-- Settles O53: the table's row for each instruction, and its eight names compared. -/
theorem mnemonicTableMatchesOpcodes : Obligations.MnemonicTableMatchesOpcodes := by
  constructor
  · intro i
    cases i <;> rfl
  · decide

end Sys2Proof.Machine

/-! # Proofs of the statements about memory (`20_memory.md`)

What a read returns after a change of one cell, then the accessors and the step. -/

namespace Sys2Proof.Machine

/-! ## Reads -/

/-- A read looks at the addressed cell alone (`20_memory.md` R31). -/
theorem read_congr {m n : Memory} {a : Nat} (h : m.get a = n.get a) : m.read a = n.read a := by
  simp [Memory.read, h]

/-- A changed cell reads the new byte. -/
theorem read_put_same {m : Memory} (h : m.wf = true) {a : Nat} (ha : a < 256) (v : Byte) : (m.put a v).read a = .ok v :=
  read_ok.mpr ⟨ha, by rw [get_put h, if_pos rfl]⟩

/-- Changing a cell changes the read of no other address, inside memory or outside it. -/
theorem read_put_of_ne {m : Memory} (h : m.wf = true) {a c : Nat} (hne : c ≠ a) (v : Byte) :
    (m.put a v).read c = m.read c :=
  read_congr (by rw [get_put h, if_neg hne.symm])

/-! ## The statements -/

/-- Settles O10: by what a read and a write can answer. -/
theorem accessorsCheckRange : Obligations.AccessorsCheckRange := by
  intro m a
  constructor
  · intro ha
    exact read_ok.mpr ⟨ha, rfl⟩
  · intro ha
    exact ⟨read_error.mpr ⟨ha, rfl⟩, fun _ => write_error.mpr ⟨ha, rfl⟩⟩

/-- Settles O11: inside memory the write answers `Memory.put`, which the rules for reads above describe. -/
theorem writeAccessorChangesOneCell : Obligations.WriteAccessorChangesOneCell := by
  intro m a v hwf
  constructor
  · intro ha
    exact ⟨m.put a v, write_ok.mpr ⟨ha, rfl⟩, put_wf hwf ha v, read_put_same hwf ha v,
      fun _ hne => read_put_of_ne hwf hne v⟩
  · intro ha
    exact write_error.mpr ⟨ha, rfl⟩

/-- Settles O13: a halted machine keeps its state, a fault leaves memory alone and so does every effect (`step_mem`). -/
theorem noStepWritesMemory : Obligations.NoStepWritesMemory :=
  fun _ _ => step_mem

end Sys2Proof.Machine

/-! # Proofs of the statements about the encoding (`30_encoding.md`)

An instruction is its opcode with its operands, and both the decoder and the encoder are read off from these two. -/

namespace Sys2Proof.Machine

/-! ## Decoding by opcode and operands -/

/-- The operands of a decoded instruction are the bytes after the opcode, in order, a missing byte as `none`. -/
theorem decodeOpcode_operands {op : Byte} {rest : List Byte} {i : Instr} (h : decodeOpcode op rest = some i) :
    i.operands = (List.range i.operands.length).map (rest[·]?) := by
  rcases decodeOpcode_some h with h | h | h | h | h | h | h | h <;> obtain ⟨-, rfl⟩ := h <;> rfl

/-- Bytes that hold the operands of an instruction decode to it under its opcode. -/
theorem decodeOpcode_of_operands {i : Instr} {rest : List Byte}
    (h : ∀ (k : Nat) (o : Operand), i.operands[k]? = some o → o = rest[k]?) : decodeOpcode i.opcode rest = some i := by
  cases i with
  | hlt => rfl
  | prn | jmp | jeq | jne =>
    obtain rfl := h 0 _ rfl
    rfl
  | ldi | mul | cmp =>
    obtain rfl := h 0 _ rfl
    obtain rfl := h 1 _ rfl
    rfl

/-- All operand bytes of a well-formed instruction are present (`30_encoding.md` R51). -/
theorem operands_of_wellFormed {i : Instr} (h : i.wellFormed = true) : ∃ bytes : List Byte, i.operands = bytes.map some := by
  cases i with
  | hlt => exact ⟨[], rfl⟩
  | prn | jmp | jeq | jne =>
    obtain ⟨b, rfl, -⟩ := isReg_iff.mp h
    exact ⟨[b], rfl⟩
  | ldi =>
    obtain ⟨hreg, himm⟩ := Bool.and_eq_true_iff.mp h
    obtain ⟨b, rfl, -⟩ := isReg_iff.mp hreg
    obtain ⟨v, rfl⟩ := isImm_iff.mp himm
    exact ⟨[b, v], rfl⟩
  | mul | cmp =>
    obtain ⟨ha, hb⟩ := Bool.and_eq_true_iff.mp h
    obtain ⟨x, rfl, -⟩ := isReg_iff.mp ha
    obtain ⟨y, rfl, -⟩ := isReg_iff.mp hb
    exact ⟨[x, y], rfl⟩

/-- Settles O2: a well-formed instruction has all its operand bytes, and they stand where the decoder looks for them. -/
theorem decodeOfEncode : Obligations.DecodeOfEncode := by
  intro i rest hwf
  obtain ⟨bytes, hbytes⟩ := operands_of_wellFormed hwf
  have hencode : encode i = i.opcode :: bytes := by simp [encode, hbytes]
  rw [hencode, List.cons_append]
  refine decode_cons_ok.mpr (decodeOpcode_of_operands fun k o hk => ?_)
  rw [hbytes, List.getElem?_map] at hk
  obtain ⟨b, hb, rfl⟩ := Option.map_eq_some_iff.mp hk
  obtain ⟨hlt, -⟩ := List.getElem?_eq_some_iff.mp hb
  rw [List.getElem?_append_left hlt, hb]

/-! ## Encoding and length -/

/-- The first `n` bytes, looked up one at a time. -/
theorem filterMap_lookup_range (bytes : List Byte) (n : Nat) :
    ((List.range n).map (bytes[·]?)).filterMap id = bytes.take n := by
  induction n with
  | zero => rfl
  | succ n ih =>
    rw [List.range_succ, List.map_append, List.filterMap_append, ih, List.take_add_one]
    cases h : bytes[n]? <;> simp [h]

/-- An instruction is as long as its opcode and its operands (`30_encoding.md` R50). -/
theorem length_eq_operands (i : Instr) : i.length = i.operands.length + 1 := by
  cases i <;> rfl

/-- Settles O3: the operands of the decoded instruction are the bytes after the opcode, as far as they go. -/
theorem encodeOfDecode : Obligations.EncodeOfDecode := by
  intro bytes i h
  cases bytes with
  | nil => cases h
  | cons op rest =>
    have hd := decode_cons_ok.mp h
    rw [encode, length_eq_operands, List.take_succ_cons, decodeOpcode_opcode hd, ← filterMap_lookup_range,
      ← decodeOpcode_operands hd]

/-- Each opcode goes with one length (`30_encoding.md` R50, R58). -/
theorem opcode_fixes_length (i : Instr) :
    (i.opcode = 0x01 ∧ i.length = 1) ∨
    (i.opcode ∈ [(0x47 : Byte), 0x54, 0x55, 0x56] ∧ i.length = 2) ∨
    (i.opcode ∈ [(0x82 : Byte), 0xA2, 0xA7] ∧ i.length = 3) := by
  cases i with
  | hlt => exact .inl ⟨rfl, rfl⟩
  | prn | jmp | jeq | jne => exact .inr (.inl ⟨of_decide_eq_true rfl, rfl⟩)
  | ldi | mul | cmp => exact .inr (.inr ⟨of_decide_eq_true rfl, rfl⟩)

/-- Settles O5: the byte is the instruction's opcode, which goes with one length. -/
theorem opcodeFixesLength : Obligations.OpcodeFixesLength := by
  intro op rest i h
  obtain rfl := decodeOpcode_opcode (decode_cons_ok.mp h)
  exact ⟨rfl, opcode_fixes_length i⟩

/-! ## Illegal opcodes -/

/-- A cycle that fetches an opcode byte the decoder does not know faults (`30_encoding.md` R56). -/
theorem step_of_illegal_opcode {s : State} {op : Byte} (hrun : s.run = .running) (hop : s.mem.read s.pc = .ok op)
    (hd : decodeOpcode op s.operandBytes = none) :
    step s = .next ((s.setIr op).raise (.illegalInstruction op)) := by
  simp only [step, hrun, State.cycle, hop, hd]

/-- Settles O4: the lookup fails on exactly these bytes, and its failure is the decoder's error and the cycle's fault. -/
theorem opcodesOutsideTheEightAreIllegal : Obligations.OpcodesOutsideTheEightAreIllegal := by
  refine ⟨fun op rest => ?_, ?_, fun s op hrun hop hout => ?_⟩
  · rw [decode_cons_error, decodeOpcode_none, and_iff_left rfl]
  · decide +kernel
  · exact ⟨_, step_of_illegal_opcode hrun hop (decodeOpcode_none.mpr hout), rfl⟩

/-! ## Bytes written out -/

/-- Settles O1: eight fixed words, each decoded. -/
theorem writtenOutBytesDecode : Obligations.WrittenOutBytesDecode :=
  ⟨rfl, rfl, rfl, rfl, rfl, rfl, rfl, rfl⟩

end Sys2Proof.Machine

/-! # Proofs of the statements about the ALU (`40_alu.md`)

What its two arithmetic operations and Compare compute, then the ALU block and the instructions MUL and CMP on it. -/

namespace Sys2Proof.Machine

/-! ## What the operations compute -/

theorem aluAdd_toNat (x y : Byte) : (aluAdd x y).toNat = (x.toNat + y.toNat) % 256 :=
  BitVec.toNat_ofNat _ _

/-- Compare of equal values keeps FL but for the equal flag (`40_alu.md` R73). -/
theorem compareFlags_of_eq (fl : Byte) {x y : Byte} (h : x = y) : compareFlags fl x y = fl ||| 0x01 :=
  if_pos h

/-- Compare of unequal values clears the whole of FL (`40_alu.md` R73). -/
theorem compareFlags_of_ne (fl : Byte) {x y : Byte} (h : x ≠ y) : compareFlags fl x y = 0x00 :=
  if_neg h

/-- Writing a register leaves every other one. -/
theorem sameRegsBut_setReg (s : State) (r : RegIndex) (v : Byte) : SameRegsBut r s (s.setReg r v) :=
  fun q hq => setReg_reg_other s r q v hq

/-! ## The ALU block -/

/-- What Add on the ALU block does. -/
theorem alu_add (s : State) (a b : RegIndex) : s.alu .add a b = .ok (s.setReg a (aluAdd (s.reg a) (s.reg b))) := rfl

/-- What Multiply on the ALU block does. -/
theorem alu_multiply (s : State) (a b : RegIndex) :
    s.alu .multiply a b = .ok (s.setReg a (aluMultiply (s.reg a) (s.reg b))) := rfl

/-- Settles O16: bit by bit on equal registers, the cleared register on unequal ones. -/
theorem aluCompareWritesFlags : Obligations.AluCompareWritesFlags := by
  intro s a b
  refine ⟨_, alu_compare s a b, fun heq => ?_, compareFlags_of_ne s.fl, fun _ => rfl, rfl, rfl, fun _ => rfl, rfl, rfl⟩
  rw [setFl_fl, compareFlags_of_eq s.fl heq]
  constructor
  · simp
  · intro k hk
    simp [hk.ne']

/-- No operand byte makes an instruction fault with UnsupportedOperation (`60_exceptions.md` R114). -/
theorem operandFault_ne_unsupported {pc : Nat} {ops : List Operand} {f : Fault} (h : OperandFault pc ops f) :
    f ≠ .unsupportedOperation := by
  obtain ⟨k, -, rfl⟩ | ⟨b, -, -, rfl⟩ := h
  · nofun
  · nofun

/-- An instruction that completes in a Running machine records no fault. -/
theorem effect_run_ne_faulted {s t : State} {i : Instr} (hrun : s.run = .running) (h : Effect s i t) (f : Fault) :
    t.run ≠ .faulted f := by
  obtain ht | ⟨-, ht⟩ := effect_run h
  · rw [ht, hrun]; nofun
  · rw [ht]; nofun

/-- Settles O18: each way a cycle can end has another fault, or none. -/
theorem unsupportedOperationOnlyAtTheAluBlock : Obligations.UnsupportedOperationOnlyAtTheAluBlock := by
  refine ⟨fun _ _ _ => rfl, fun s t hrun h => ?_⟩
  obtain ⟨-, rfl⟩ | ⟨op, -, ⟨-, rfl⟩ | ⟨i, -, ⟨f, hf, rfl⟩ | he⟩⟩ := step_next hrun h
  · rw [raise_run]; nofun
  · rw [raise_run]; nofun
  · rw [raise_run]
    exact fun heq => operandFault_ne_unsupported hf (RunStatus.faulted.inj heq)
  · exact effect_run_ne_faulted (s := s.setIr op) hrun he _

/-- Settles O14: the written register holds `aluAdd`, and `setReg` leaves the rest. -/
theorem aluAddWraps : Obligations.AluAddWraps := by
  intro s a b
  refine ⟨_, alu_add s a b, ?_, sameRegsBut_setReg s a _, rfl, rfl, rfl, fun _ => rfl, rfl, rfl⟩
  rw [setReg_reg_same, aluAdd_toNat]

/-- Settles O15: the written register holds `aluMultiply`, and `setReg` leaves the rest. -/
theorem aluMultiplyWraps : Obligations.AluMultiplyWraps := by
  intro s a b
  refine ⟨_, alu_multiply s a b, ?_, sameRegsBut_setReg s a _, rfl, rfl, rfl, fun _ => rfl, rfl, rfl⟩
  rw [setReg_reg_same, aluMultiply_toNat]

/-! ## MUL and CMP -/

/-- Settles O22: MUL's effect is Multiply's, past three bytes. -/
theorem mulMultiplies : Obligations.MulMultiplies := by
  intro s x y a b ha hb
  refine ⟨_, exec_of_effect (.mul ha hb), ?_, rfl, sameRegsBut_setReg s a _, rfl, rfl, fun _ => rfl, rfl, rfl⟩
  rw [advance_reg, setReg_reg_same, aluMultiply_toNat]

/-- Settles O23: CMP's effect is Compare's, past three bytes. -/
theorem cmpWritesFlags : Obligations.CmpWritesFlags := by
  intro s x y a b ha hb
  exact ⟨_, exec_of_effect (.cmp ha hb), rfl, rfl, fun _ => rfl, rfl, fun _ => rfl, rfl, rfl⟩

end Sys2Proof.Machine

/-! # Proofs of the statements about the execution cycle (`41_execution_cycle.md`)

A cycle follows the bytes at PC: what they read as, what a step does with them, and where they come from when a word is placed. -/

namespace Sys2Proof.Machine

/-! ## The bytes at PC -/

/-- The first of the bytes at an address is what a read there answers. -/
theorem read_of_bytesFrom_cons {m : Memory} {a n : Nat} {b : Byte} {rest : List Byte}
    (h : m.bytesFrom a (n + 1) = b :: rest) : m.read a = .ok b := by
  cases hb : m.read a with
  | ok c =>
    rw [bytesFrom_of_read hb] at h
    rw [(List.cons.inj h).1]
  | error f => simp [Memory.bytesFrom, hb] at h

/-- A byte read after the opcode is one of the operand bytes. -/
theorem operandBytes_of_read {s : State} {k : Nat} {b : Byte} (hk : k < 2) (h : s.mem.read (s.pc + 1 + k) = .ok b) :
    s.operandBytes[k]? = some b := by
  obtain ⟨ha, hget⟩ := read_ok.mp h
  rw [operandBytes_getElem?, if_pos ⟨hk, ha⟩, hget]

/-! ## Each way a cycle can go -/

/-- Settles O32: the fetched byte is the opcode of the instruction that the bytes decode to. -/
theorem stepRunsDecodedInstruction : Obligations.StepRunsDecodedInstruction := by
  intro s i hrun hdec
  obtain ⟨op, hop, hd⟩ := decode_bytesFrom_ok hdec
  obtain rfl := decodeOpcode_opcode hd
  exact step_of_decodeOpcode hrun hop hd

/-- Settles O33: `raise` changes RUN alone. -/
theorem fetchOutsideMemoryFaults : Obligations.FetchOutsideMemoryFaults :=
  fun _ => step_of_fetch_outside

/-- Settles O34: the lookup fails on this byte whatever follows it, so whether operand bytes are there does not matter. -/
theorem illegalOpcodeFaultsPrecisely : Obligations.IllegalOpcodeFaultsPrecisely := by
  intro s op rest hrun hbytes hdec
  obtain ⟨hnone, -⟩ := decode_cons_error.mp hdec
  exact step_of_illegal_opcode hrun (read_of_bytesFrom_cons hbytes) (decodeOpcode_none.mpr (decodeOpcode_none.mp hnone))

/-- Settles O19: HLT's effect is `halt`, which changes RUN alone. -/
theorem hltHalts : Obligations.HltHalts :=
  fun _ => ⟨_, exec_of_effect .hlt, rfl, rfl, fun _ => rfl, rfl, rfl, fun _ => rfl, rfl⟩

/-- The execute phase ends in a next state, by the instruction's effect or by its fault. -/
theorem exec_next (i : Instr) (s : State) : ∃ t, exec i s = .next t := by
  obtain ⟨t, -, h⟩ | ⟨f, -, h⟩ := exec_cases i s
  · exact ⟨t, h⟩
  · exact ⟨_, h⟩

/-- Settles O35: the faults of fetch and decode are next states, and so is the end of every execute phase. -/
theorem runningMachineAlwaysSteps : Obligations.RunningMachineAlwaysSteps := by
  intro s hrun
  obtain ⟨-, h⟩ | ⟨op, -, -, h⟩ | ⟨op, i, -, -, h⟩ := step_cases hrun
  · exact ⟨_, h⟩
  · exact ⟨_, h⟩
  · rw [h]
    exact exec_next i (s.setIr op)

/-! ## A jump to itself -/

/-- A step at a JMP whose operand byte is a register goes to the address that register holds (`43_jumps.md` R95). -/
theorem step_of_jmp {s : State} {b : Byte} {r : RegIndex} (hrun : s.run = .running) (hop : s.mem.read s.pc = .ok 0x54)
    (hb : s.mem.read (s.pc + 1) = .ok b) (hr : b.toNat = r.val) :
    step s = .next ((s.setIr 0x54).jumpTo (s.reg r)) := by
  have hd : decodeOpcode 0x54 s.operandBytes = some (.jmp (some b)) :=
    congrArg (fun o => some (Instr.jmp o)) (operandBytes_of_read (k := 0) (by omega) hb)
  rw [step_of_decodeOpcode hrun hop hd]
  exact exec_of_effect (.jmp hr)

/-- A jump to the address in PC changes nothing. -/
theorem jumpTo_of_toNat_eq_pc {s : State} {v : Byte} (h : v.toNat = s.pc) : s.jumpTo v = s := by
  rw [State.jumpTo, h]

/-- A machine whose step only fetches, whatever IR held, reaches no state but itself with another IR. -/
theorem reaches_of_step_setIr {s t : State} {op : Byte} (hstep : ∀ ir, step (s.setIr ir) = .next (s.setIr op))
    (h : Reaches s t) : ∃ ir, t = s.setIr ir := by
  induction h with
  | refl => exact ⟨s.ir, rfl⟩
  | tail _ hnext ih =>
    obtain ⟨ir, rfl⟩ := ih
    rw [hstep ir] at hnext
    cases hnext
    exact ⟨op, rfl⟩

/-- Settles O50: each step is back at the JMP with only IR fetched, so every reached state is the first one but for IR. -/
theorem jumpToSelfRunsForever : Obligations.JumpToSelfRunsForever := by
  intro s b r hrun hop hb hr hself
  have hstep : ∀ ir, step (s.setIr ir) = .next (s.setIr 0x54) := fun ir => by
    rw [step_setIr_of_fetch hrun (read_ok.mp hop).1, step_of_jmp hrun hop hb hr]
    exact congrArg _ (jumpTo_of_toNat_eq_pc (s := s.setIr 0x54) hself)
  constructor
  · intro t hreach f hfault
    obtain ⟨ir, rfl⟩ := reaches_of_step_setIr hstep hreach
    rw [setIr_run, hrun] at hfault
    cases hfault
  · intro t hreach
    obtain ⟨ir, rfl⟩ := reaches_of_step_setIr hstep hreach
    exact ⟨hrun, rfl, fun _ => rfl, rfl, rfl, _, hstep ir⟩

/-! ## Placing an opcode-table word -/

/-- Storing a byte inside memory and then the rest behind it. -/
theorem storeBytes_cons {m : Memory} {a : Nat} (ha : a < 256) (b : Byte) (rest : List Byte) :
    m.storeBytes a (b :: rest) = (m.put a b).storeBytes (a + 1) rest := by
  simp only [Memory.storeBytes, write_ok.mpr ⟨ha, rfl⟩]

/-- Storing bytes changes no read below them. -/
theorem read_storeBytes_below {m : Memory} {a c : Nat} {bytes : List Byte} (h : m.wf = true)
    (hroom : a + bytes.length ≤ 256) (hc : c < a) : (m.storeBytes a bytes).read c = m.read c := by
  induction bytes generalizing m a with
  | nil => rfl
  | cons b rest ih =>
    rw [List.length_cons] at hroom
    have ha : a < 256 := by omega
    rw [storeBytes_cons ha, ih (put_wf h ha b) (by omega) (by omega), read_put_of_ne h hc.ne]

/-- Bytes stored where there is room are the bytes that stand there. -/
theorem bytesFrom_storeBytes {m : Memory} {a : Nat} {bytes : List Byte} (h : m.wf = true)
    (hroom : a + bytes.length ≤ 256) : (m.storeBytes a bytes).bytesFrom a bytes.length = bytes := by
  induction bytes generalizing m a with
  | nil => rfl
  | cons b rest ih =>
    rw [List.length_cons] at hroom
    have ha : a < 256 := by omega
    have hput := put_wf h ha b
    have hread : ((m.put a b).storeBytes (a + 1) rest).read a = .ok b := by
      rw [read_storeBytes_below hput (by omega) (by omega), read_put_same h ha]
    rw [storeBytes_cons ha, List.length_cons, bytesFrom_of_read hread, ih hput (by omega)]

@[simp] theorem bytesOfNat_length (n w : Nat) : (bytesOfNat n w).length = n := by
  induction n generalizing w with
  | zero => rfl
  | succ n ih => simp [bytesOfNat, ih]

/-- An opcode-table word has three bytes, its unused ones included. -/
theorem tableBytes_length (nbits w : Nat) : (tableBytes nbits w).length = 3 :=
  bytesOfNat_length _ _

/-- The decoder reads a word as its bytes. -/
theorem decodeTableWord_eq_some {nbits w : Nat} {i : Instr} :
    decodeTableWord nbits w = some i ↔ decode (tableBytes nbits w) = .ok i := by
  unfold decodeTableWord
  cases decode (tableBytes nbits w) <;> simp

/-- A word placed at a PC that leaves it room is what the next cycle fetches. -/
theorem bytesFrom_withFetchWord {s : State} (hwf : s.mem.wf = true) (hpc : s.pc ≤ 253) (nbits w : Nat) :
    (s.withFetchWord nbits w).mem.bytesFrom s.pc 3 = tableBytes nbits w := by
  have hlen := tableBytes_length nbits w
  rw [← hlen]
  exact bytesFrom_storeBytes hwf (by omega)

/-- Settles O52: the placed bytes stand at PC, so the step runs what they decode to. -/
theorem placedWordIsExecutedNext : Obligations.PlacedWordIsExecutedNext := by
  intro s nbits w i hwf hpc hword
  refine stepRunsDecodedInstruction _ i rfl ?_
  exact (congrArg decode (bytesFrom_withFetchWord hwf hpc nbits w)).trans (decodeTableWord_eq_some.mp hword)

end Sys2Proof.Machine

/-! # Proofs of the statements about LDI and PRN (`42_ldi_prn.md`)

What each does when its operands pass, the two in a row, then PRN at PC with each way its register byte can be. -/

namespace Sys2Proof.Machine

/-! ## The two effects -/

/-- Settles O20: LDI's effect is `setReg`, past three bytes. -/
theorem ldiLoadsImmediate : Obligations.LdiLoadsImmediate := by
  intro s b v r hr
  refine ⟨_, exec_of_effect (.ldi hr), ?_, rfl, sameRegsBut_setReg s r v, rfl, rfl, fun _ => rfl, rfl, rfl⟩
  rw [advance_reg, setReg_reg_same]

/-- Settles O21: PRN's effect is `emit`, past two bytes. -/
theorem prnEmitsRegister : Obligations.PrnEmitsRegister := by
  intro s b r hr
  exact ⟨_, exec_of_effect (.prn hr), rfl, rfl, fun _ => rfl, rfl, rfl, fun _ => rfl, rfl⟩

/-- Settles O28: LDI keeps OUT and leaves `v` in the register that PRN emits. -/
theorem ldiThenPrnEmitsImmediate : Obligations.LdiThenPrnEmitsImmediate := by
  intro s t u b v hb hldi hprn
  obtain ⟨t', ht, hreg, -, -, -, -, -, -, hout⟩ := ldiLoadsImmediate s b v ⟨b.toNat, hb⟩ rfl
  obtain rfl : t' = t := by simpa [ht] using hldi
  obtain ⟨u', hu, hemit, -⟩ := prnEmitsRegister t' b ⟨b.toNat, hb⟩ rfl
  obtain rfl : u' = u := by simpa [hu] using hprn
  rw [hemit, hout, hreg]

/-! ## PRN in memory -/

/-- Both faults of an operand byte are of the kind OutOfBounds (`60_exceptions.md` R112, R113). -/
theorem operandFault_kind {pc : Nat} {ops : List Operand} {f : Fault} (h : OperandFault pc ops f) :
    f.kind = .outOfBounds := by
  obtain ⟨k, -, rfl⟩ | ⟨b, -, -, rfl⟩ := h
  · rfl
  · rfl

/-- A PRN whose operand is refused faults and emits nothing (`42_ldi_prn.md` R91). -/
theorem exec_prn_of_error {s : State} {o : Operand} {f : Fault} (h : operandsR o s.pc = .error f) :
    ∃ t, exec (.prn o) s = .next t ∧ t.run.faultKind = some .outOfBounds ∧ t.out = s.out :=
  ⟨_, exec_of_faulting (.prn h), congrArg some (operandFault_kind (operandsR_error h)), rfl⟩

/-- A step at a PRN executes it with the byte after the opcode, if that lies in memory. -/
theorem step_of_prn {s : State} (hrun : s.run = .running) (hop : s.mem.read s.pc = .ok 0x47) :
    step s = exec (.prn s.operandBytes[0]?) (s.setIr 0x47) :=
  step_of_decodeOpcode hrun hop rfl

/-- Settles O40: the operand byte is a register, is above 7, or lies outside memory. -/
theorem prnInMemory : Obligations.PrnInMemory := by
  intro s hrun hop
  rw [step_of_prn hrun hop]
  refine ⟨fun b r hb hr => ?_, fun b hb hge => ?_, fun hpc => ?_⟩
  · obtain ⟨t, ht, hout, htpc, hregs, hfl, -, hmem, htrun⟩ := prnEmitsRegister (s.setIr 0x47) b r hr
    rw [operandBytes_of_read (k := 0) (by omega) hb]
    exact ⟨t, ht, hout, htpc, hregs, hfl, hmem, htrun.trans hrun⟩
  · rw [operandBytes_of_read (k := 0) (by omega) hb]
    exact exec_prn_of_error (s := s.setIr 0x47) (regIdx_error.mpr ⟨hge, rfl⟩)
  · rw [operandBytes_getElem?, if_neg (by omega)]
    exact exec_prn_of_error (s := s.setIr 0x47) rfl

end Sys2Proof.Machine

/-! # Proofs of the statements about the jumps (`43_jumps.md`)

JMP first, then each conditional jump as JMP where it is taken, then JMP at PC with each way its register byte can be. -/

namespace Sys2Proof.Machine

/-! ## The three effects -/

/-- Settles O24: JMP's effect is `jumpTo`, which changes PC alone. -/
theorem jmpJumpsToRegister : Obligations.JmpJumpsToRegister := by
  intro s b r hr
  exact ⟨_, exec_of_effect (.jmp hr), rfl, fun _ => rfl, rfl, rfl, fun _ => rfl, rfl, rfl⟩

/-- A taken JEQ is a JMP, its faults included (`43_jumps.md` R96). -/
theorem exec_jeq_taken {s : State} (h : s.equalFlag = true) (o : Operand) : exec (.jeq o) s = exec (.jmp o) s := by
  simp only [exec, execJeq, execJmp, jumpIf, h, if_true]

/-- A taken JNE is a JMP, its faults included (`43_jumps.md` R97). -/
theorem exec_jne_taken {s : State} (h : s.equalFlag = false) (o : Operand) : exec (.jne o) s = exec (.jmp o) s := by
  simp only [exec, execJne, execJmp, jumpIf, h, Bool.not_false, if_true]

/-- Settles O25: taken, JEQ does what JMP does; not taken, its effect is `advance`. -/
theorem jeqJumpsWhenEqual : Obligations.JeqJumpsWhenEqual := by
  intro s
  constructor
  · intro hset b r hr
    rw [exec_jeq_taken hset]
    exact jmpJumpsToRegister s b r hr
  · intro hclear o
    exact ⟨_, exec_of_effect (.jeqNotTaken hclear), rfl, fun _ => rfl, rfl, rfl, fun _ => rfl, rfl, rfl⟩

/-- Settles O26: taken, JNE does what JMP does; not taken, its effect is `advance`. -/
theorem jneJumpsWhenNotEqual : Obligations.JneJumpsWhenNotEqual := by
  intro s
  constructor
  · intro hclear b r hr
    rw [exec_jne_taken hclear]
    exact jmpJumpsToRegister s b r hr
  · intro hset o
    exact ⟨_, exec_of_effect (.jneNotTaken hset), rfl, fun _ => rfl, rfl, rfl, fun _ => rfl, rfl, rfl⟩

/-- Settles O27: bit 0 of FL decides which of the two is the JMP, and the other one's effect is `advance`. -/
theorem jeqAndJneAreComplements : Obligations.JeqAndJneAreComplements := by
  intro s o
  cases he : s.equalFlag with
  | true => exact .inl ⟨he, exec_jeq_taken he o, exec_of_effect (.jneNotTaken he)⟩
  | false => exact .inr ⟨he, exec_jne_taken he o, exec_of_effect (.jeqNotTaken he)⟩

/-! ## JMP in memory -/

/-- A step at a JMP whose operand is refused faults with kind OutOfBounds (`43_jumps.md` R95). -/
theorem step_of_jmp_error {s : State} {f : Fault} (hrun : s.run = .running) (hop : s.mem.read s.pc = .ok 0x54)
    (h : operandsR s.operandBytes[0]? s.pc = .error f) :
    ∃ t, step s = .next t ∧ t.run.faultKind = some .outOfBounds := by
  have hexec : step s = exec (.jmp s.operandBytes[0]?) (s.setIr 0x54) := step_of_decodeOpcode hrun hop rfl
  exact ⟨_, hexec.trans (exec_of_faulting (.jmp h)), congrArg some (operandFault_kind (operandsR_error h))⟩

/-- Settles O41: the operand byte is a register, is above 7, or lies outside memory. -/
theorem jmpInMemory : Obligations.JmpInMemory := by
  intro s hrun hop
  refine ⟨fun b r hb hr => ?_, fun b hb hge => ?_, fun hpc => ?_⟩
  · exact ⟨_, step_of_jmp hrun hop hb hr, rfl, fun _ => rfl, rfl, fun _ => rfl, hrun, rfl⟩
  · refine step_of_jmp_error hrun hop (f := .outOfBoundsReg b) ?_
    rw [operandBytes_of_read (k := 0) (by omega) hb]
    exact regIdx_error.mpr ⟨hge, rfl⟩
  · refine step_of_jmp_error hrun hop (f := .outOfBoundsMem (s.pc + 1)) ?_
    rw [operandBytes_getElem?, if_neg (by omega)]
    rfl

end Sys2Proof.Machine

/-! # Proof of the statement about the output text (`50_interfaces.md`)

The digits of a byte are one, two or three, by its size; each shape is read off once. -/

namespace Sys2Proof.Machine

/-- A byte's digits: a lone digit, or two or three of which the first is not 0 (`50_interfaces.md` R102, D13). -/
theorem decimalDigits_cases (b : Byte) :
    (∃ u, decimalDigits b = [u] ∧ u < 10 ∧ b.toNat = u) ∨
    (∃ t u, decimalDigits b = [t, u] ∧ 0 < t ∧ t < 10 ∧ u < 10 ∧ b.toNat = 10 * t + u) ∨
    (∃ h t u, decimalDigits b = [h, t, u] ∧ 0 < h ∧ h < 10 ∧ t < 10 ∧ u < 10 ∧
      b.toNat = 10 * (10 * h + t) + u) := by
  have hb : b.toNat < 256 := b.isLt
  unfold decimalDigits
  split_ifs with h1 h2
  · exact .inl ⟨_, rfl, h1, rfl⟩
  · exact .inr (.inl ⟨_, _, rfl, by omega⟩)
  · exact .inr (.inr ⟨_, _, _, rfl, by omega⟩)

/-- Every digit is below 10. -/
theorem decimalDigits_lt_ten (b : Byte) : ∀ d ∈ decimalDigits b, d < 10 := by
  obtain ⟨u, h, hu, -⟩ | ⟨t, u, h, -, ht, hu, -⟩ | ⟨c, t, u, h, -, hc, ht, hu, -⟩ := decimalDigits_cases b
  · simp [h, hu]
  · simp [h, ht, hu]
  · simp [h, hc, ht, hu]

/-- There is a digit to write, for 0 too. -/
theorem decimalDigits_ne_nil (b : Byte) : decimalDigits b ≠ [] := by
  obtain ⟨u, h, -⟩ | ⟨t, u, h, -⟩ | ⟨c, t, u, h, -⟩ := decimalDigits_cases b <;> simp [h]

/-- A leading 0 stands alone. -/
theorem decimalDigits_eq_zero_of_head {b : Byte} (hd : (decimalDigits b).head? = some 0) : decimalDigits b = [0] := by
  obtain ⟨u, h, -⟩ | ⟨t, u, h, ht, -⟩ | ⟨c, t, u, h, hc, -⟩ := decimalDigits_cases b
  · simpa [h] using hd
  · exact absurd (by simpa [h] using hd) ht.ne'
  · exact absurd (by simpa [h] using hd) hc.ne'

/-- Read in base 10, the digits give the byte back. -/
theorem foldl_decimalDigits (b : Byte) :
    (decimalDigits b).foldl (fun value d => 10 * value + d) 0 = b.toNat := by
  obtain ⟨u, h, -, hv⟩ | ⟨t, u, h, -, -, -, hv⟩ | ⟨c, t, u, h, -, -, -, -, hv⟩ := decimalDigits_cases b <;>
    simp [h, hv]

/-- Settles O54: the digits are `decimalDigits`, and `renderByte` writes them before one line feed. -/
theorem outputTextIsDecimalLine : Obligations.OutputTextIsDecimalLine := by
  intro b
  exact ⟨decimalDigits b, decimalDigits_ne_nil b, decimalDigits_lt_ten b, decimalDigits_eq_zero_of_head,
    foldl_decimalDigits b, rfl⟩

end Sys2Proof.Machine

/-! # Proofs of the statements about exceptions (`60_exceptions.md`)

The fault of each operand form, one lemma per check in the order of R119; then the instructions of that form; then the cycle. -/

namespace Sys2Proof.Machine

/-! ## Which check of an operand form fails first -/

/-- A byte above 7 names no register (`30_encoding.md` R54). -/
theorem regIdx_of_ge {b : Byte} (h : 8 ≤ b.toNat) : regIdx b = .error (.outOfBoundsReg b) :=
  regIdx_error.mpr ⟨h, rfl⟩

theorem operandsR_missing (pc : Nat) : operandsR none pc = .error (.outOfBoundsMem (pc + 1)) := rfl

theorem operandsR_not_register {b : Byte} (h : 8 ≤ b.toNat) (pc : Nat) :
    operandsR (some b) pc = .error (.outOfBoundsReg b) :=
  regIdx_of_ge h

theorem operandsRI_register_missing (v : Operand) (pc : Nat) :
    operandsRI none v pc = .error (.outOfBoundsMem (pc + 1)) := rfl

theorem operandsRI_immediate_missing (b : Byte) (pc : Nat) :
    operandsRI (some b) none pc = .error (.outOfBoundsMem (pc + 2)) := rfl

theorem operandsRI_not_register {b : Byte} (h : 8 ≤ b.toNat) (v : Byte) (pc : Nat) :
    operandsRI (some b) (some v) pc = .error (.outOfBoundsReg b) := by
  simp only [operandsRI, operandByte, bind, Except.bind, regIdx_of_ge h]

theorem operandsRR_first_missing (ob : Operand) (pc : Nat) :
    operandsRR none ob pc = .error (.outOfBoundsMem (pc + 1)) := rfl

theorem operandsRR_second_missing (x : Byte) (pc : Nat) :
    operandsRR (some x) none pc = .error (.outOfBoundsMem (pc + 2)) := rfl

theorem operandsRR_first_not_register {x : Byte} (h : 8 ≤ x.toNat) (y : Byte) (pc : Nat) :
    operandsRR (some x) (some y) pc = .error (.outOfBoundsReg x) := by
  simp only [operandsRR, operandByte, bind, Except.bind, regIdx_of_ge h]

theorem operandsRR_second_not_register {x y : Byte} (hx : x.toNat < 8) (hy : 8 ≤ y.toNat) (pc : Nat) :
    operandsRR (some x) (some y) pc = .error (.outOfBoundsReg y) := by
  have hx' : regIdx x = .ok ⟨x.toNat, hx⟩ := regIdx_ok.mpr rfl
  simp only [operandsRR, operandByte, bind, Except.bind, hx', regIdx_of_ge hy]

/-! ## The instructions of each form -/

/-- Settles O29: MUL and CMP take the fault of format OP_R_R. -/
theorem mulAndCmpCheckOperandsInOrder : Obligations.MulAndCmpCheckOperandsInOrder := by
  intro s oa ob i hi
  have raises {f : Fault} (h : operandsRR oa ob s.pc = .error f) : exec i s = .next (s.raise f) := by
    obtain rfl | rfl := hi
    · exact exec_of_faulting (.mul h)
    · exact exec_of_faulting (.cmp h)
  refine ⟨?_, ?_, ?_, ?_⟩
  · rintro rfl
    exact raises (operandsRR_first_missing ob s.pc)
  · rintro x rfl rfl
    exact raises (operandsRR_second_missing x s.pc)
  · rintro x y rfl rfl hx
    exact raises (operandsRR_first_not_register hx y s.pc)
  · rintro x y rfl rfl hx hy
    exact raises (operandsRR_second_not_register hx hy s.pc)

/-- Settles O30: LDI takes the fault of format OP_R_I. -/
theorem ldiChecksOperandsInOrder : Obligations.LdiChecksOperandsInOrder := by
  intro s o v
  refine ⟨?_, ?_, ?_⟩
  · rintro rfl
    exact exec_of_faulting (.ldi (operandsRI_register_missing v s.pc))
  · rintro b rfl rfl
    exact exec_of_faulting (.ldi (operandsRI_immediate_missing b s.pc))
  · rintro b w rfl rfl hb
    exact exec_of_faulting (.ldi (operandsRI_not_register hb w s.pc))

/-- Settles O31: PRN and the taken jumps take the fault of format OP_R. -/
theorem oneRegisterInstructionsCheckOperand : Obligations.OneRegisterInstructionsCheckOperand := by
  intro s o i hi
  have raises {f : Fault} (h : operandsR o s.pc = .error f) : exec i s = .next (s.raise f) := by
    obtain rfl | rfl | ⟨rfl, hset⟩ | ⟨rfl, hclear⟩ := hi
    · exact exec_of_faulting (.prn h)
    · exact exec_of_faulting (.jmp h)
    · exact exec_of_faulting (.jeq hset h)
    · exact exec_of_faulting (.jne hclear h)
  constructor
  · rintro rfl
    exact raises (operandsR_missing s.pc)
  · rintro b rfl hb
    exact raises (operandsR_not_register hb s.pc)

/-! ## The cycle -/

/-- A cycle that ends in Faulted raised its fault in the state it began in, with IR fetched where the fetch succeeded
(`60_exceptions.md` R118). -/
theorem step_faulted {s t : State} {f : Fault} (hrun : s.run = .running) (h : step s = .next t)
    (hfault : t.run = .faulted f) :
    (256 ≤ s.pc ∧ t = s.raise f) ∨ ∃ op, s.mem.read s.pc = .ok op ∧ t = (s.setIr op).raise f := by
  obtain ⟨hpc, rfl⟩ | ⟨op, hop, ⟨-, rfl⟩ | ⟨i, -, ⟨g, -, rfl⟩ | he⟩⟩ := step_next hrun h
  · cases hfault
    exact .inl ⟨hpc, rfl⟩
  · cases hfault
    exact .inr ⟨op, hop, rfl⟩
  · cases hfault
    exact .inr ⟨op, hop, rfl⟩
  · exact absurd hfault (effect_run_ne_faulted (s := s.setIr op) hrun he f)

/-- Settles O39: a fetch outside memory leaves IR, and after a fetch that succeeded IR is the only other change. -/
theorem faultsArePrecise : Obligations.FaultsArePrecise := by
  intro s t f hrun h hfault
  obtain ⟨hpc, rfl⟩ | ⟨op, hop, rfl⟩ := step_faulted hrun h hfault
  · refine ⟨fun _ => rfl, rfl, rfl, fun _ => rfl, rfl, fun _ => rfl, fun op hop => ?_⟩
    exact absurd (read_ok.mp hop).1 (by omega)
  · refine ⟨fun _ => rfl, rfl, rfl, fun _ => rfl, rfl, fun hpc => ?_, fun op' hop' => ?_⟩
    · exact absurd (read_ok.mp hop).1 (by omega)
    · exact Except.ok.inj (hop.symm.trans hop')

end Sys2Proof.Machine

/-! # Proofs of the statements about reset and program load (`70_reset_and_hazards.md`)

What a load answers for an image that fits and for one that does not, what the cells then hold, and the state after `boot`. -/

namespace Sys2Proof.Machine

/-! ## What a load answers -/

/-- Loading a byte inside memory and then the rest behind it. -/
theorem load_cons {m : Memory} {a : Nat} (ha : a < 256) (b : Byte) (rest : List Byte) :
    m.load a (b :: rest) = (m.put a b).load (a + 1) rest := by
  simp only [Memory.load, write_ok.mpr ⟨ha, rfl⟩]

/-- An image that fits loads whole (`70_reset_and_hazards.md` R131). -/
theorem load_of_fits {m : Memory} {a : Nat} {image : List Byte} (hroom : a + image.length ≤ 256) :
    m.load a image = .ok (m.storeBytes a image) := by
  induction image generalizing m a with
  | nil => rfl
  | cons b rest ih =>
    rw [List.length_cons] at hroom
    have ha : a < 256 := by omega
    rw [load_cons ha, storeBytes_cons ha, ih (by omega)]

/-- An image that does not fit meets the write contract's fault at the first address outside memory (log 8). -/
theorem load_of_not_fits {m : Memory} {a : Nat} {image : List Byte} (ha : a ≤ 256) (hlong : 256 < a + image.length) :
    m.load a image = .error (.outOfBoundsMem 256) := by
  induction image generalizing m a with
  | nil =>
    rw [List.length_nil] at hlong
    omega
  | cons b rest ih =>
    rw [List.length_cons] at hlong
    obtain rfl | hlt := ha.eq_or_lt
    · simp only [Memory.load, write_error.mpr ⟨le_rfl, rfl⟩]
    · rw [load_cons hlt, ih hlt (by omega)]

/-! ## What the loaded cells hold -/

/-- A byte stored where there is room reads back. -/
theorem read_storeBytes_getElem {m : Memory} {a k : Nat} {bytes : List Byte} (h : m.wf = true)
    (hroom : a + bytes.length ≤ 256) (hk : k < bytes.length) : (m.storeBytes a bytes).read (a + k) = .ok bytes[k] := by
  have hcell := bytesFrom_getElem? (m.storeBytes a bytes) a bytes.length k
  rw [bytesFrom_storeBytes h hroom, if_pos ⟨hk, by omega⟩, List.getElem?_eq_getElem hk] at hcell
  exact read_ok.mpr ⟨by omega, (Option.some.inj hcell).symm⟩

/-- Storing bytes changes no read above them. -/
theorem read_storeBytes_above {m : Memory} {a c : Nat} {bytes : List Byte} (h : m.wf = true)
    (hroom : a + bytes.length ≤ 256) (hc : a + bytes.length ≤ c) : (m.storeBytes a bytes).read c = m.read c := by
  induction bytes generalizing m a with
  | nil => rfl
  | cons b rest ih =>
    rw [List.length_cons] at hroom hc
    have ha : a < 256 := by omega
    rw [storeBytes_cons ha, ih (put_wf h ha b) (by omega) (by omega), read_put_of_ne h (by omega)]

/-! ## Reset and boot -/

/-- Every cell reads 0x00 at reset (`70_reset_and_hazards.md` R130). -/
theorem read_reset {a : Nat} (ha : a < 256) : State.reset.mem.read a = .ok 0x00 :=
  read_ok.mpr ⟨ha, rfl⟩

/-- An image that fits boots to the reset state with the image stored from address 0 up (`70_reset_and_hazards.md` R131). -/
theorem boot_of_fits {image : List Byte} (h : image.length ≤ 256) :
    boot image = .ok { State.reset with mem := State.reset.mem.storeBytes 0 image } := by
  have hroom : 0 + image.length ≤ 256 := by omega
  simp only [boot, State.load, load_of_fits hroom]

/-- An image longer than memory does not boot (log 8). -/
theorem boot_of_not_fits {image : List Byte} (h : 256 < image.length) : boot image = .error (.outOfBoundsMem 256) := by
  have hlong : 256 < 0 + image.length := by omega
  simp only [boot, State.load, load_of_not_fits (Nat.zero_le 256) hlong]

/-- Only an image that fits boots, and only to that state. -/
theorem boot_ok {image : List Byte} {s : State} :
    boot image = .ok s ↔
      image.length ≤ 256 ∧ s = { State.reset with mem := State.reset.mem.storeBytes 0 image } := by
  by_cases hfit : image.length ≤ 256
  · simp [boot_of_fits hfit, hfit, eq_comm]
  · simp [boot_of_not_fits (Nat.lt_of_not_le hfit), hfit]

/-- After a boot a cell holds its image byte, or 0x00 past the image (`70_reset_and_hazards.md` R131). -/
theorem read_of_boot {image : List Byte} {s : State} {a : Nat} (h : boot image = .ok s) (ha : a < 256) :
    s.mem.read a = .ok (image[a]?.getD 0x00) := by
  obtain ⟨hfit, rfl⟩ := boot_ok.mp h
  have hroom : 0 + image.length ≤ 256 := by omega
  by_cases hin : a < image.length
  · simpa [hin] using read_storeBytes_getElem (m := State.reset.mem) rfl hroom hin
  · have hpast : image.length ≤ a := by omega
    rw [read_storeBytes_above rfl hroom (by omega), read_reset ha, List.getElem?_eq_none hpast, Option.getD_none]

/-- A booted memory is in its canonical form. -/
theorem mem_wf_of_boot {image : List Byte} {s : State} (h : boot image = .ok s) : s.mem.wf = true := by
  obtain ⟨-, rfl⟩ := boot_ok.mp h
  exact storeBytes_wf rfl

/-! ## The statements -/

/-- Settles O9: an image that fits boots to the reset state with its bytes stored, a longer one fails where it leaves memory. -/
theorem loaderPlacesImage : Obligations.LoaderPlacesImage := by
  refine fun image => ⟨fun hfit => ?_, boot_of_not_fits⟩
  have hboot := boot_of_fits hfit
  exact ⟨_, hboot, mem_wf_of_boot hboot, fun _ => read_of_boot hboot, fun _ => rfl, rfl, rfl, rfl, rfl, rfl⟩

/-- Settles O51: past the image the fetched byte is 0x00, which is none of the eight opcodes. -/
theorem unloadedMemoryIsIllegal : Obligations.UnloadedMemoryIsIllegal := by
  intro image s t hboot hmem hrun hpast hpc
  have hop : t.mem.read t.pc = .ok 0x00 := by
    rw [hmem, read_of_boot hboot hpc, List.getElem?_eq_none hpast, Option.getD_none]
  exact step_of_illegal_opcode hrun hop (decodeOpcode_none.mpr (by decide))

/-- Settles O8: the fields of the reset state. -/
theorem resetMemoryFlagsOutput : Obligations.ResetMemoryFlagsOutput :=
  ⟨fun _ => read_reset, rfl, rfl, rfl⟩

/-- Settles O47: reset meets each clause, and a boot changes memory alone, to one in canonical form. -/
theorem bootedMachineMeetsInvariant : Obligations.BootedMachineMeetsInvariant := by
  have hreset : Inv State.reset := ⟨rfl, Nat.zero_le 257, .inl rfl, trivial⟩
  refine ⟨hreset, fun image s hboot => ?_⟩
  have hwf := mem_wf_of_boot hboot
  obtain ⟨-, rfl⟩ := boot_ok.mp hboot
  exact { hreset with memory := hwf }

end Sys2Proof.Machine
